-- ==== Sys2Proof/Word.lean ====
section
/-! DEFINITION. The machine's two word types (spec/00_scope.md R6, R8). -/

namespace Sys2Proof

/-- A byte: 8 bits, unsigned (R6, R8).  `A`, `X`, `Y`, `SP`, `P` and every memory byte are bytes. -/
abbrev Byte := BitVec 8

/-- A 16-bit word: an address, the program counter, or the word JSR stores (R6, R8).
Arithmetic on it wraps modulo 65536, which is what R51 asks of every address. -/
abbrev Addr := BitVec 16

end Sys2Proof
end

