-- ==== Sys2Proof/Config.lean ====
section
/-! DEFINITION. The parameters of spec/00_scope.md R7 that a model takes as arguments.
The values the spec's own rules use (its defaults) are `specConfig` in Sys2Proof/Decode.lean.
Two parameters of R7 are not fields here.  `BUDGET_WIDTH` is OPEN and the model's budget is a
mathematical integer (R31, D10).  The launch memory image is an argument of the host operation
that loads it (Machine/HostInterface.lean). -/

namespace Sys2Proof

/-- `FLAG_UPDATE_MODE` (R7, R123, D1): how a load updates `Z` and `N`. -/
inductive FlagUpdateMode where
  /-- the flags "reflect only the latest result": the spec's default -/
  | clearThenSet
  /-- legacy: a flag is only ever set, never cleared, by a load -/
  | setOnly
  deriving DecidableEq, Repr

/-- The configuration of R7, fixed for a run and no part of the state (R34). -/
structure Config where
  /-- `FLAG_UPDATE_MODE` (D1) -/
  flagUpdateMode : FlagUpdateMode
  /-- `SP_RESET`: the value reset puts into `SP` (D3) -/
  spReset : Byte
  /-- `JSR_SP_DELTA`: added to `SP` modulo 256 after JSR's stack write (D5) -/
  jsrSpDelta : Byte
  /-- `OPC_LDA_ZP`: the opcode byte of LDA zero page (D8) -/
  opcLdaZp : Byte
  /-- `OPC_JSR`: the opcode byte of JSR absolute (D8) -/
  opcJsr : Byte
  deriving DecidableEq, Repr

end Sys2Proof
end

