-- ==== Sys2Proof/Syntax.lean ====
section
/-! DEFINITION. The instructions, one constructor per row of spec/opcode_table.json
(spec/30_encoding.md R82 to R87, R91).  An opcode byte that selects none of them is an unknown
opcode (R88): it is no instruction, the decoder names it, and the step gives it R110's effect. -/

namespace Sys2Proof

/-- The four instructions, with the operand each carries.  Every operand field is as wide as the
field of the encoding it comes from, so that every term of this type is an instruction. -/
inductive Instr where
  /-- `LDA #imm8`, opcode 0xA9, format IMM8 (R82, R124) -/
  | ldaImm (imm8 : Byte)
  /-- `LDA zp8`, opcode `OPC_LDA_ZP`, format ZP8 (R83, R125) -/
  | ldaZp (zp8 : Byte)
  /-- `LDA zp8,X`, opcode 0xB5, format ZP8 (R83, R126) -/
  | ldaZpX (zp8 : Byte)
  /-- `JSR abs16`, opcode `OPC_JSR`, format ABS16; `target` is the word `hi8 * 256 + lo8` (R84, R86, R145) -/
  | jsr (target : Addr)
  deriving DecidableEq, Repr

end Sys2Proof
end

