-- ==== Sys2Proof/WellFormed.lean ====
section
/-! DEFINITION. What the types do not already say.  An instruction has nothing left to check: each
operand's type is exactly its field's width (R82 to R84, R86: no operand is scaled, aligned or
restricted, and the spec reserves no operand value, R89).  What can be ill-formed is a choice of
the two opcode parameters: D8 admits "any assignment of two distinct bytes outside 0xA9, 0xB5". -/

namespace Sys2Proof

/-- The two opcode parameters are distinct from each other and from the two opcode bytes the source
gives, so that the four opcode bytes are four different bytes (R87, D8). -/
def Config.wf (c : Config) : Bool :=
  c.opcLdaZp != 0xA9#8 && c.opcLdaZp != 0xB5#8 &&
  c.opcJsr != 0xA9#8 && c.opcJsr != 0xB5#8 && c.opcJsr != c.opcLdaZp

end Sys2Proof
end

