-- ==== Sys2Proof/Decode.lean ====
section
/-! DEFINITION. The spec's parameter values, the byte-order helpers, the decoder and the encoder
(spec/30_encoding.md R80 to R91). -/

namespace Sys2Proof

/-- The default of every parameter of R7: the values "the rules of this spec use unless they say
otherwise".  `OPC_LDA_ZP` and `OPC_JSR` are the spec's own choice, from the 6502 family's opcode
assignment (R87, D8); the other three are D1, D3 and D5. -/
def specConfig : Config where
  flagUpdateMode := .clearThenSet
  spReset := 0x00#8
  jsrSpDelta := 0x00#8
  opcLdaZp := 0xA5#8
  opcJsr := 0x20#8

/-! ## Byte order (R8, R57) -/

/-- `{hi, lo} = hi * 256 + lo` (R8). -/
def wordOf (hi lo : Byte) : Addr := (hi.setWidth 16 <<< 8) ||| lo.setWidth 16

/-- `w[7:0]` (R8). -/
def loByte (w : Addr) : Byte := w.extractLsb' 0 8

/-- `w[15:8]` (R8). -/
def hiByte (w : Addr) : Byte := w.extractLsb' 8 8

/-! ## Decoding -/

/-- What an opcode byte and the bytes after it stand for. -/
inductive Decoded where
  /-- one of the four instructions, with its operand -/
  | instr (i : Instr)
  /-- an unknown opcode, rejected by its byte: format OP1, no operand (R85, R88) -/
  | unknown (op : Byte)
  deriving DecidableEq, Repr

/-- The decoder: dispatch on the whole opcode byte `b0`, in the order of R105; `b1` and `b2` are the
two bytes after it, of which an instruction uses as many as its length says (R80 to R84, R87). -/
def decodeWith (c : Config) (b0 b1 b2 : Byte) : Decoded :=
  if b0 = 0xA9#8 then .instr (.ldaImm b1)
  else if b0 = c.opcLdaZp then .instr (.ldaZp b1)
  else if b0 = 0xB5#8 then .instr (.ldaZpX b1)
  else if b0 = c.opcJsr then .instr (.jsr (wordOf b2 b1))
  else .unknown b0

/-- The decoder at the spec's own opcode bytes. -/
def decode (b0 b1 b2 : Byte) : Decoded := decodeWith specConfig b0 b1 b2

/-- How many bytes what was decoded consumes, opcode byte included (R81, R91 `length`). -/
def Decoded.length : Decoded → Nat
  | .instr (.ldaImm _) => 2
  | .instr (.ldaZp _) => 2
  | .instr (.ldaZpX _) => 2
  | .instr (.jsr _) => 3
  | .unknown _ => 1

/-- The whole charge of what was decoded against `CYC`, opcode fetch included: the totals of R185's
table, the column `cycles` of the opcode table (R91), and the 1 of an unknown opcode.  No step reads
it: a step charges access by access, and that the two agree is a statement for the provers. -/
def Decoded.cycles : Decoded → Nat
  | .instr (.ldaImm _) => 2
  | .instr (.ldaZp _) => 3
  | .instr (.ldaZpX _) => 4
  | .instr (.jsr _) => 6
  | .unknown _ => 1

/-- How many bytes an opcode byte asks for: "The decoder learns the length from the opcode byte
only" (R81). -/
def lengthWith (c : Config) (op : Byte) : Nat := (decodeWith c op 0 0).length

/-- The decoder on a finite run of bytes: what its first bytes stand for and the bytes left over;
`none` exactly where the run ends before the instruction does (R80, R81). -/
def decodeBytesWith (c : Config) : List Byte → Option (Decoded × List Byte)
  | [] => none
  | b0 :: rest =>
    if lengthWith c b0 ≤ rest.length + 1 then
      some (decodeWith c b0 (rest.getD 0 0) (rest.getD 1 0), rest.drop (lengthWith c b0 - 1))
    else none

/-- The decoder on a run of bytes, at the spec's own opcode bytes. -/
def decodeBytes (bytes : List Byte) : Option (Decoded × List Byte) := decodeBytesWith specConfig bytes

/-! ## Encoding -/

/-- The bytes of an instruction in memory order, from the formats IMM8, ZP8 and ABS16 (R82 to R84)
and the opcode map (R87). -/
def encodeWith (c : Config) : Instr → List Byte
  | .ldaImm imm8 => [0xA9#8, imm8]
  | .ldaZp zp8 => [c.opcLdaZp, zp8]
  | .ldaZpX zp8 => [0xB5#8, zp8]
  | .jsr target => [c.opcJsr, loByte target, hiByte target]

/-- The encoder at the spec's own opcode bytes. -/
def encode (i : Instr) : List Byte := encodeWith specConfig i

/-! ## The opcode table's numbering of bits -/

/-- Byte `k` of a word of `nbits` bits numbered as the opcode table numbers them, first byte lowest;
every bit from `nbits` on is 0. -/
def tableByte (nbits w k : Nat) : Byte := BitVec.ofNat 8 ((w % 2 ^ nbits) >>> (8 * k))

/-- The instruction the decoder reads from an instruction whose bits are `w`. -/
def decodeTableWord (nbits w : Nat) : Option Instr :=
  match decode (tableByte nbits w 0) (tableByte nbits w 1) (tableByte nbits w 2) with
  | .instr i => some i
  | .unknown _ => none

end Sys2Proof
end

