-- ==== Sys2Proof/Machine/State.lean ====
section
/-! DEFINITION. The state of the machine as plain data, its value after reset, and the reasons a
step or a host operation can stop (spec/10_state.md R20 to R36, spec/00_scope.md R11). -/

namespace Sys2Proof.Machine

/-- Why a step stops.  No instruction and no unknown opcode stops (R112, R154). -/
inductive Fault where
  /-- Raised by `step` alone, when the budget is not positive: "Halted has no step of the core" (R106).
  Safe: the model stops where the core has no step; log entry 2. -/
  | halted
  deriving DecidableEq, Repr

/-- What the model gives no meaning. -/
inductive Refusal where
  /-- For an arm of `exec` that has no meaning yet.  No arm is left without one.  Safe. -/
  | notModelled (mnemonic : String)
  /-- Raised by `hostAct` alone: a host operation while the core is Running, which the source forbids
  ("No concurrent mutation", R62, R174; spec/93 U11 `refuse`).  Safe: no run continues from it; log entry 9. -/
  | hostWhileRunning
  deriving DecidableEq, Repr

/-- An entry of the diagnostic output `DIAG` (R32, R150). -/
inductive Event where
  /-- `Unsupported(op)`: the kind UnsupportedInstruction with the opcode byte, nothing more (R150, R151) -/
  | unsupported (op : Byte)
  deriving DecidableEq, Repr

/-- The memory `M` (R33, R50): address and byte pairs in canonical form (`Memory.wf` in Ops.lean).
An address that is not listed holds `Memory.unlisted`. -/
abbrev Memory := List Host.Cell

/-- The state of R11 and R20: "exactly" these nine.  Running and Halted are not stored (R34). -/
structure State where
  /-- accumulator (R22) -/
  a : Byte
  /-- index register X (R23) -/
  x : Byte
  /-- index register Y, inert (R24) -/
  y : Byte
  /-- stack pointer, an offset in page 0x01 (R25) -/
  sp : Byte
  /-- program counter (R26) -/
  pc : Addr
  /-- status register, laid out as R27 says -/
  p : Byte
  /-- memory (R33) -/
  mem : Memory
  /-- cycle budget, a mathematical integer (R31) -/
  cyc : Int
  /-- diagnostic output, oldest first (R32) -/
  diag : List Event
  deriving DecidableEq, Repr

/-- The machine right after reset at configuration `c`, on a fresh memory (R36, R170).  `CYC` and `DIAG`
are not reset by the spec: `DIAG` is "empty at power-on" (R20), and `CYC` is 0, the model's choice among
the values under which "after reset the core is still Halted" (R170); DESIGN CHOICE, log entry 1. -/
def State.resetWith (c : Config) : State where
  a := 0x00#8
  x := 0x00#8
  y := 0x00#8
  sp := c.spReset
  pc := 0xFFFC#16
  p := 0x00#8
  mem := []
  cyc := 0
  diag := []

/-- The machine right after reset, `SP_RESET` at its default (R36). -/
def State.reset : State := State.resetWith specConfig

end Sys2Proof.Machine
end

