-- ==== Sys2Proof/Machine/Flags.lean ====
section
/-! DEFINITION. The status register `P`: its bits by name and the flag update of a load
(spec/10_state.md R27 to R30, spec/41_load.md R123). -/

namespace Sys2Proof.Machine

/-- The eight bits of `P` by name (R27). -/
inductive Flag where
  /-- Negative -/
  | n
  /-- Overflow: inert -/
  | v
  /-- bit 5, unused: inert -/
  | unused
  /-- Break: inert -/
  | b
  /-- Decimal: inert, selects no decimal mode (R30) -/
  | d
  /-- Interrupt disable: inert, masks nothing (R30) -/
  | i
  /-- Zero -/
  | z
  /-- Carry: inert -/
  | c
  deriving DecidableEq, Repr

/-- The position of a flag in `P` (R27, D2). -/
def Flag.bit : Flag → Nat
  | .n => 7
  | .v => 6
  | .unused => 5
  | .b => 4
  | .d => 3
  | .i => 2
  | .z => 1
  | .c => 0

/-- The value of flag `f` in the status byte `p`; `P.Z` is `flag .z P`, `P.N` is `flag .n P` (R9). -/
def flag (f : Flag) (p : Byte) : Bool := p.getLsbD f.bit

/-- The status byte with flag `f` made `val` and the other seven bits kept. -/
def setFlag (f : Flag) (val : Bool) (p : Byte) : Byte :=
  if val then p ||| (1#8 <<< f.bit) else p &&& ~~~(1#8 <<< f.bit)

/-- `SetZN(v)` on the status byte `p`, in both modes (R123). -/
def setZN (mode : FlagUpdateMode) (v p : Byte) : Byte :=
  match mode with
  | .clearThenSet => setFlag .n (v.getLsbD 7) (setFlag .z (decide (v = 0x00#8)) p)
  | .setOnly =>
    let p := if v = 0x00#8 then setFlag .z true p else p
    if v.getLsbD 7 then setFlag .n true p else p

end Sys2Proof.Machine
end

