-- ==== Sys2Proof/Machine/Ops.lean ====
section
/-! DEFINITION. The named operations over memory and registers: the memory primitives of
spec/20_memory.md, the cycle-charging primitives of spec/40_execute_loop.md, the flag update as an
operation on the state, the stack write of spec/42_jsr.md, the instruction fetch, and the one
exception-like event of spec/60_exceptions.md. -/

namespace Sys2Proof.Machine

/-! ## Memory (R50 to R57) -/

/-- What an address that is not listed holds: "A read of an address never written since the memory
was created returns 0x00, because construction zero-fills" (R53). -/
def Memory.unlisted : Byte := 0x00#8

/-- The byte listed for the key `n`, or the unlisted byte. -/
def Memory.lookup : Memory → Nat → Byte
  | [], _ => Memory.unlisted
  | (k, b) :: rest, n => if k = n then b else Memory.lookup rest n

/-- The memory with no entry for the key `n`. -/
def Memory.erase (m : Memory) (n : Nat) : Memory := m.filter (fun cell => cell.1 != n)

/-- The memory with the entry `(n, b)` put before the first larger key. -/
def Memory.insert : Memory → Nat → Byte → Memory
  | [], n, b => [(n, b)]
  | (k, b') :: rest, n, b => if n < k then (n, b) :: (k, b') :: rest else (k, b') :: Memory.insert rest n b

/-- `MemRead(a, 1)`: the byte `M[a]` (R53).  Every 16-bit index is valid (R33, R51). -/
def Memory.read (m : Memory) (a : Addr) : Byte := Memory.lookup m a.toNat

/-- `MemWrite(a, 1, v)`: `M[a] <- v` (R54).  The entry goes where the value is the unlisted byte, so
that equal memories are equal lists. -/
def Memory.write (m : Memory) (a : Addr) (v : Byte) : Memory :=
  if v = Memory.unlisted then Memory.erase m a.toNat
  else Memory.insert (Memory.erase m a.toNat) a.toNat v

/-- `MemRead(a, 2)`: little-endian, the second byte at `(a + 1) mod 65536` (R55). -/
def Memory.readWord (m : Memory) (a : Addr) : Addr := wordOf (m.read (a + 1#16)) (m.read a)

/-- `MemWrite(a, 2, w)`: low byte at `a`, then high byte at `(a + 1) mod 65536` (R56). -/
def Memory.writeWord (m : Memory) (a w : Addr) : Memory :=
  (m.write a (loByte w)).write (a + 1#16) (hiByte w)

/-- The memory after the host's direct writes of an image, in order (R67, R174). -/
def Memory.load (m : Memory) : List (Addr × Byte) → Memory
  | [] => m
  | (a, v) :: rest => Memory.load (m.write a v) rest

/-- The canonical form of a memory: keys are 16-bit addresses and strictly rise, and no entry holds
the unlisted byte. -/
def Memory.wf : Memory → Bool
  | [] => true
  | (k, b) :: rest =>
    decide (k < 65536) && b != Memory.unlisted && rest.all (fun cell => decide (k < cell.1)) && Memory.wf rest

/-! ## The one home of each register -/

/-- `A <- v`. -/
def State.setA (s : State) (v : Byte) : State := { s with a := v }
/-- `X <- v`. -/
def State.setX (s : State) (v : Byte) : State := { s with x := v }
/-- `Y <- v`. -/
def State.setY (s : State) (v : Byte) : State := { s with y := v }
/-- `SP <- v`. -/
def State.setSP (s : State) (v : Byte) : State := { s with sp := v }
/-- `PC <- v`. -/
def State.setPC (s : State) (v : Addr) : State := { s with pc := v }
/-- `P <- v`. -/
def State.setP (s : State) (v : Byte) : State := { s with p := v }
/-- The memory replaced by `m`. -/
def State.setMem (s : State) (m : Memory) : State := { s with mem := m }
/-- `CYC <- n`. -/
def State.setCyc (s : State) (n : Int) : State := { s with cyc := n }
/-- `DIAG` replaced by `d`. -/
def State.setDiag (s : State) (d : List Event) : State := { s with diag := d }

/-- Running: the budget is positive (R11, R106).  Halted is its negation. -/
abbrev Running (s : State) : Prop := 0 < s.cyc

/-! ## Cycle-charging primitives (R100 to R104) -/

/-- `Charge(n)`: exact subtraction, no lower bound (R100). -/
def charge (n : Nat) (s : State) : State := s.setCyc (s.cyc - n)

/-- `FetchByte()`: the byte at `PC`, then `PC + 1` modulo 65536, 1 cycle (R101). -/
def fetchByte (s : State) : Byte × State := (s.mem.read s.pc, charge 1 (s.setPC (s.pc + 1#16)))

/-- `FetchWord()`: two `FetchByte`s, low byte first (R102). -/
def fetchWord (s : State) : Addr × State :=
  let (lo, s) := fetchByte s
  let (hi, s) := fetchByte s
  (wordOf hi lo, s)

/-- What `n` `FetchByte`s do to the state, for instruction bytes whose values the decoder has already
read: `PC + n` modulo 65536 and `n` cycles (R26, R101). -/
def consume (n : Nat) (s : State) : State := charge n (s.setPC (s.pc + BitVec.ofNat 16 n))

/-- `ReadByte(a)`: the byte at `a`, 1 cycle, `PC` kept (R103). -/
def readByte (a : Addr) (s : State) : Byte × State := (s.mem.read a, charge 1 s)

/-- `WriteWordCharged(a, w)`: the word store and its 2 cycles (R104, D7). -/
def writeWordCharged (a w : Addr) (s : State) : State := charge 2 (s.setMem (s.mem.writeWord a w))

/-! ## What a load does with its byte -/

/-- `A <- v; SetZN(v)`: the end of every LDA (R123 to R126). -/
def loadA (c : Config) (v : Byte) (s : State) : State :=
  (s.setA v).setP (setZN c.flagUpdateMode v s.p)

/-! ## The stack location (R140) -/

/-- `StackAddr() = 0x0100 + SP`, on the full 16 bits (R140). -/
def stackAddr (sp : Byte) : Addr := 0x0100#16 + sp.setWidth 16

/-! ## Instruction fetch -/

/-- What stands at `PC`: the decoder on the three bytes from `PC` on, consecutive modulo 65536 (R80),
read from the same memory as data at the moment the step runs (R65).  Memory reads have no effect
(R53), so that reading a byte the instruction does not use changes nothing; log entry 4. -/
def decodeAt (c : Config) (s : State) : Decoded :=
  decodeWith c (s.mem.read s.pc) (s.mem.read (s.pc + 1#16)) (s.mem.read (s.pc + 2#16))

/-! ## The one event that resembles an exception (R110, R150) -/

/-- `raise Unsupported(op)`: append to `DIAG`, and nothing else (R150). -/
def raiseUnsupported (op : Byte) (s : State) : State := s.setDiag (s.diag ++ [.unsupported op])

/-- The whole step of an unknown opcode: the opcode fetch, then the report; no control transfer, no
saved state, no mode (R110, R150, R157). -/
def unknownOpcode (op : Byte) (s : State) : State := raiseUnsupported op (consume 1 s)

end Sys2Proof.Machine
end

