-- ==== Sys2Proof/Machine/Jump.lean ====
section
/-! DEFINITION. The meaning of JSR, the only control transfer and the only store
(spec/42_jsr.md R140 to R146). -/

namespace Sys2Proof.Machine

/-- `JSR_ABS` after its operand fetch, in the order of R144: the word is formed from the `PC` that the
fetch left, stored at the stack location, `SP` moved by the delta, `PC` set, the internal cycle
charged (R145). -/
def jsrWith (c : Config) (target : Addr) (s : State) : State :=
  let w := s.pc - 1#16
  let s := writeWordCharged (stackAddr s.sp) w s
  let s := s.setSP (s.sp + c.jsrSpDelta)
  let s := s.setPC target
  charge 1 s

/-- JSR absolute: 3 bytes, 6 cycles (R145). -/
def execJsr (target : Addr) (s : State) : Host.Outcome State Fault Refusal :=
  .next (jsrWith specConfig target (consume 3 s))

end Sys2Proof.Machine
end

