-- ==== Sys2Proof/Machine/Operands.lean ====
section
/-! DEFINITION. The operand forms (spec/30_encoding.md R86, spec/41_load.md R120 to R122).  The
immediate form needs no operation: its byte is the value (R120).  The absolute form is assembled by
the decoder's `wordOf` (R86). -/

namespace Sys2Proof.Machine

/-- Zero page: `EA = zext_16(zp8)` (R86, R121). -/
def eaZp (zp8 : Byte) : Addr := zp8.setWidth 16

/-- Zero page indexed by X: the 8-bit sum, its carry dropped, then `zext_16` (R86, R122). -/
def eaZpX (zp8 x : Byte) : Addr := (zp8 + x).setWidth 16

/-- The operand of LDA zero page, after its operand byte: the charged read at `EA` (R121, R125). -/
def zpOperand (zp8 : Byte) (s : State) : Byte × State := readByte (eaZp zp8) s

/-- The operand of LDA zero page,X, after its operand byte: the addition's own cycle, then the charged
read at `EA`; no access at the un-indexed address (R122, R126, D24). -/
def zpXOperand (zp8 : Byte) (s : State) : Byte × State := readByte (eaZpX zp8 s.x) (charge 1 s)

end Sys2Proof.Machine
end

