-- ==== Sys2Proof/Machine/Load.lean ====
section
/-! DEFINITION. The meanings of the three LDA forms (spec/41_load.md R124 to R126).  A handler with
the suffix `With` is the part of the spec's pseudocode that follows the operand fetch, at any
configuration; a meaning is the whole step: the instruction's bytes consumed, then the handler at
`specConfig`. -/

namespace Sys2Proof.Machine

/-- `LDA_IMM` after its operand fetch (R124). -/
def ldaImmWith (c : Config) (imm8 : Byte) (s : State) : State := loadA c imm8 s

/-- `LDA_ZP` after its operand fetch (R125). -/
def ldaZpWith (c : Config) (zp8 : Byte) (s : State) : State :=
  let (v, s) := zpOperand zp8 s
  loadA c v s

/-- `LDA_ZPX` after its operand fetch (R126). -/
def ldaZpXWith (c : Config) (zp8 : Byte) (s : State) : State :=
  let (v, s) := zpXOperand zp8 s
  loadA c v s

/-- LDA immediate: 2 bytes, 2 cycles (R124). -/
def execLdaImm (imm8 : Byte) (s : State) : Host.Outcome State Fault Refusal :=
  .next (ldaImmWith specConfig imm8 (consume 2 s))

/-- LDA zero page: 2 bytes, 3 cycles (R125). -/
def execLdaZp (zp8 : Byte) (s : State) : Host.Outcome State Fault Refusal :=
  .next (ldaZpWith specConfig zp8 (consume 2 s))

/-- LDA zero page indexed by X: 2 bytes, 4 cycles (R126). -/
def execLdaZpX (zp8 : Byte) (s : State) : Host.Outcome State Fault Refusal :=
  .next (ldaZpXWith specConfig zp8 (consume 2 s))

end Sys2Proof.Machine
end

