-- ==== Sys2Proof/Machine/Dispatch.lean ====
section
/-! DEFINITION. The meaning of each instruction, one arm per constructor (spec/40_execute_loop.md R105). -/

namespace Sys2Proof.Machine

/-- The whole step of an instruction whose bytes, operand included, stand at `PC` (R105). -/
def exec (i : Instr) (s : State) : Host.Outcome State Fault Refusal :=
  match i with
  | .ldaImm imm8 => Sys2Proof.Machine.execLdaImm imm8 s
  | .ldaZp zp8 => Sys2Proof.Machine.execLdaZp zp8 s
  | .ldaZpX zp8 => Sys2Proof.Machine.execLdaZpX zp8 s
  | .jsr target => Sys2Proof.Machine.execJsr target s

end Sys2Proof.Machine
end

