-- ==== Sys2Proof/Machine/Step.lean ====
section
/-! DEFINITION. One step of the machine, and the host's way to place an instruction
(spec/40_execute_loop.md R105, R106). -/

namespace Sys2Proof.Machine

/-- `Step()`, taken only in Running (R105, R106): what stands at `PC` is decoded, and the instruction,
or the unknown opcode, has its whole effect.  Halted has no step: the fault `halted` (log entry 2). -/
def step (s : State) : Host.Outcome State Fault Refusal :=
  if Running s then
    match decodeAt specConfig s with
    | .instr i => exec i s
    | .unknown op => .next (unknownOpcode op s)
  else .fault .halted

/-- `s` with an instruction of `nbits` bits `w` placed where the next step fetches: three bytes from
`PC` on, consecutive modulo 65536.  Where `s` is Halted the budget is loaded with 1, as the host's
`Execute(1)` does, which "runs exactly one step" (R162, R175); log entry 3. -/
def State.withFetchWord (s : State) (nbits w : Nat) : State :=
  { s with
    mem := s.mem.load [(s.pc, tableByte nbits w 0), (s.pc + 1#16, tableByte nbits w 1), (s.pc + 2#16, tableByte nbits w 2)]
    cyc := if 0 < s.cyc then s.cyc else 1 }

end Sys2Proof.Machine
end

