-- ==== Sys2Proof/Laws/Flags.lean ====
section
/-! SUPPORT. The bits of the status register by name (spec/10_state.md R27). -/

namespace Sys2Proof.Machine

theorem Flag.bit_lt (f : Flag) : f.bit < 8 := by cases f <;> decide

theorem Flag.bit_inj {f g : Flag} : f.bit = g.bit ↔ f = g := by cases f <;> cases g <;> decide

/-- Writing one flag gives that flag its value and leaves the seven others. -/
@[simp] theorem flag_setFlag (f g : Flag) (val : Bool) (p : Byte) :
    flag f (setFlag g val p) = if f = g then val else flag f p := by
  have hf := f.bit_lt
  have hg := g.bit_lt
  unfold flag setFlag
  by_cases h : f = g
  · subst h
    cases val <;> simp [hf]
  · have hne : f.bit ≠ g.bit := fun e => h (Flag.bit_inj.mp e)
    have hbit : (1#8 <<< g.bit).getLsbD f.bit = false := by
      simp only [BitVec.getLsbD_shiftLeft, BitVec.getLsbD_one]
      simp
      omega
    rw [if_neg h]
    cases val
    · simp only [Bool.false_eq_true, if_false, BitVec.getLsbD_and, BitVec.getLsbD_not, hbit, hf, decide_true]
      simp
    · simp only [if_true, BitVec.getLsbD_or, hbit, Bool.or_false]

/-- A status byte is its eight flags. -/
theorem status_ext {p q : Byte} (h : ∀ f, flag f p = flag f q) : p = q := by
  apply BitVec.eq_of_getLsbD_eq
  intro i hi
  interval_cases i
  · exact h .c
  · exact h .z
  · exact h .i
  · exact h .d
  · exact h .b
  · exact h .unused
  · exact h .v
  · exact h .n

end Sys2Proof.Machine
end

