-- ==== Sys2Proof/Laws/Memory.lean ====
section
/-! SUPPORT. The memory's read-after-write law, its canonical form kept by every memory operation, and
the byte-order helpers (spec/20_memory.md R53 to R57). -/

namespace Sys2Proof.Machine

/-! ## Byte order -/

@[simp] theorem loByte_wordOf (hi lo : Byte) : loByte (wordOf hi lo) = lo := by
  apply BitVec.eq_of_getLsbD_eq
  intro i h
  have : i < 16 := by omega
  simp [loByte, wordOf, h, this]

@[simp] theorem hiByte_wordOf (hi lo : Byte) : hiByte (wordOf hi lo) = hi := by
  apply BitVec.eq_of_getLsbD_eq
  intro i h
  have h16 : 8 + i < 16 := by omega
  simp [hiByte, wordOf, h, h16]

@[simp] theorem wordOf_hiByte_loByte (w : Addr) : wordOf (hiByte w) (loByte w) = w := by
  apply BitVec.eq_of_getLsbD_eq
  intro i h
  by_cases h8 : i < 8
  · simp [wordOf, loByte, h, h8]
  · have hi : i - 8 < 8 := by omega
    have : 8 + (i - 8) = i := by omega
    simp [wordOf, loByte, hiByte, h, h8, hi, this]

/-- The successor of an address is another address, so the two bytes of a word never coincide (R56). -/
theorem addr_succ_ne (a : Addr) : a + 1#16 ≠ a := by bv_omega

/-! ## Reads after writes -/

theorem Memory.lookup_of_not_listed {m : Memory} {n : Nat} (h : ∀ cell ∈ m, cell.1 ≠ n) :
    m.lookup n = Memory.unlisted := by
  induction m with
  | nil => rfl
  | cons cell rest ih =>
    have hcell : cell.1 ≠ n := h cell (by simp)
    simpa [Memory.lookup, hcell] using ih fun c hc => h c (by simp [hc])

theorem Memory.erase_not_listed (m : Memory) (n : Nat) : ∀ cell ∈ m.erase n, cell.1 ≠ n := by
  intro cell h
  simpa using (List.mem_filter.mp h).2

theorem Memory.lookup_erase (m : Memory) (k n : Nat) :
    (m.erase k).lookup n = if n = k then Memory.unlisted else m.lookup n := by
  by_cases hn : n = k
  · subst hn
    simp [Memory.lookup_of_not_listed (Memory.erase_not_listed m n)]
  · rw [if_neg hn]
    induction m with
    | nil => rfl
    | cons cell rest ih =>
      by_cases hk : cell.1 = k
      · have hkn : cell.1 ≠ n := fun h => hn (by rw [← h, hk])
        simpa [Memory.erase, Memory.lookup, hk, hkn, Ne.symm hn] using ih
      · by_cases hkn : cell.1 = n
        · simp [Memory.erase, Memory.lookup, hkn, hn]
        · simpa [Memory.erase, Memory.lookup, hk, hkn] using ih

theorem Memory.lookup_insert {m : Memory} {k : Nat} (h : ∀ cell ∈ m, cell.1 ≠ k) (v : Byte) (n : Nat) :
    (m.insert k v).lookup n = if n = k then v else m.lookup n := by
  induction m with
  | nil => simp [Memory.insert, Memory.lookup, eq_comm]
  | cons cell rest ih =>
    have hcell : cell.1 ≠ k := h cell (by simp)
    have ih := ih fun c hc => h c (by simp [hc])
    by_cases hlt : k < cell.1
    · simp [Memory.insert, Memory.lookup, hlt, eq_comm]
    · by_cases hn : cell.1 = n
      · have : n ≠ k := by rwa [← hn]
        simp only [Memory.insert, if_neg hlt, Memory.lookup, if_pos hn, if_neg this]
      · simpa [Memory.insert, Memory.lookup, hlt, hn] using ih

/-- The law of memory: a read after a write gives the value written, and every other address reads
as before (R53, R54). -/
theorem Memory.read_write (m : Memory) (a b : Addr) (v : Byte) :
    (m.write a v).read b = if b = a then v else m.read b := by
  have hab : b.toNat = a.toNat ↔ b = a := BitVec.toNat_inj
  unfold Memory.read Memory.write
  split
  · rename_i hv
    simp [Memory.lookup_erase, hab, hv]
  · rw [Memory.lookup_insert (Memory.erase_not_listed m _), Memory.lookup_erase]
    by_cases h : b = a <;> simp [h, hab]

@[simp] theorem Memory.read_write_self (m : Memory) (a : Addr) (v : Byte) : (m.write a v).read a = v := by
  simp [Memory.read_write]

theorem Memory.read_write_of_ne {a b : Addr} (h : b ≠ a) (m : Memory) (v : Byte) :
    (m.write a v).read b = m.read b := by
  simp [Memory.read_write, h]

@[simp] theorem Memory.read_nil (a : Addr) : Memory.read [] a = 0x00#8 := rfl

/-! ## The canonical form -/

theorem Memory.wf_cons {k : Nat} {b : Byte} {rest : Memory} :
    Memory.wf ((k, b) :: rest) = true ↔
      k < 65536 ∧ b ≠ Memory.unlisted ∧ (∀ cell ∈ rest, k < cell.1) ∧ rest.wf = true := by
  simp [Memory.wf, and_assoc]

theorem Memory.wf_erase {m : Memory} (h : m.wf = true) (n : Nat) : (m.erase n).wf = true := by
  induction m with
  | nil => rfl
  | cons cell rest ih =>
    obtain ⟨hk, hb, hlt, hrest⟩ := Memory.wf_cons.mp h
    by_cases hn : cell.1 = n
    · simpa [Memory.erase, hn] using ih hrest
    · have : Memory.erase (cell :: rest) n = cell :: Memory.erase rest n := by simp [Memory.erase, hn]
      rw [this]
      exact Memory.wf_cons.mpr ⟨hk, hb, fun c hc => hlt c (List.mem_filter.mp hc).1, ih hrest⟩

theorem Memory.mem_insert {m : Memory} {k : Nat} {v : Byte} {cell : Host.Cell}
    (h : cell ∈ m.insert k v) : cell = (k, v) ∨ cell ∈ m := by
  induction m with
  | nil => simpa [Memory.insert] using h
  | cons c rest ih =>
    unfold Memory.insert at h
    split at h
    · simpa using h
    · rcases List.mem_cons.mp h with rfl | h
      · simp
      · rcases ih h with h | h <;> simp [h]

theorem Memory.wf_insert {m : Memory} (h : m.wf = true) {k : Nat} (hk : k < 65536) {v : Byte}
    (hv : v ≠ Memory.unlisted) (hfree : ∀ cell ∈ m, cell.1 ≠ k) : (m.insert k v).wf = true := by
  induction m with
  | nil => exact Memory.wf_cons.mpr ⟨hk, hv, by simp, rfl⟩
  | cons cell rest ih =>
    obtain ⟨hk', hb', hlt, hrest⟩ := Memory.wf_cons.mp h
    unfold Memory.insert
    split
    · rename_i hlt'
      refine Memory.wf_cons.mpr ⟨hk, hv, fun c hc => ?_, h⟩
      rcases List.mem_cons.mp hc with rfl | hc
      · exact hlt'
      · exact lt_trans hlt' (hlt c hc)
    · rename_i hge
      refine Memory.wf_cons.mpr ⟨hk', hb', fun c hc => ?_, ih hrest fun c hc => hfree c (by simp [hc])⟩
      rcases Memory.mem_insert hc with rfl | hc
      · have := hfree cell (by simp)
        simp only at hge ⊢
        omega
      · exact hlt c hc

/-- A write keeps the canonical form. -/
theorem Memory.wf_write {m : Memory} (h : m.wf = true) (a : Addr) (v : Byte) : (m.write a v).wf = true := by
  unfold Memory.write
  split
  · exact Memory.wf_erase h _
  · rename_i hv
    exact Memory.wf_insert (Memory.wf_erase h _) a.isLt hv (Memory.erase_not_listed m _)

/-- A word write keeps the canonical form. -/
theorem Memory.wf_writeWord {m : Memory} (h : m.wf = true) (a w : Addr) : (m.writeWord a w).wf = true :=
  Memory.wf_write (Memory.wf_write h _ _) _ _

/-- Loading an image keeps the canonical form. -/
theorem Memory.wf_load (image : List (Addr × Byte)) {m : Memory} (h : m.wf = true) : (m.load image).wf = true := by
  induction image generalizing m with
  | nil => exact h
  | cons cell rest ih => exact ih (Memory.wf_write h _ _)

end Sys2Proof.Machine
end

