-- ==== Sys2Proof/Laws/PerInstr.lean ====
section
/-! SUPPORT. The family EncodedLength: the encoding of an instruction has as many bytes as the opcode
table's `length` says, which its first byte alone gives (spec/30_encoding.md R81, R91). -/

namespace Sys2Proof.Laws.EncodedLength

/-- The encoding of `i` has the length of `i`, and its opcode byte asks for that length. -/
def Statement (i : Instr) : Prop :=
  (encode i).length = (Decoded.instr i).length ∧
    (encode i).head?.map (lengthWith specConfig) = some (Decoded.instr i).length

theorem ldaImm (imm8 : Byte) : Statement (.ldaImm imm8) := ⟨rfl, rfl⟩

theorem ldaZp (zp8 : Byte) : Statement (.ldaZp zp8) := ⟨rfl, rfl⟩

theorem ldaZpX (zp8 : Byte) : Statement (.ldaZpX zp8) := ⟨rfl, rfl⟩

theorem jsr (target : Addr) : Statement (.jsr target) := ⟨rfl, rfl⟩

end Sys2Proof.Laws.EncodedLength
end

