-- ==== Sys2Proof/Laws/Decode.lean ====
section
/-! SUPPORT. What each opcode byte decodes to, and what a decoded instruction says of its bytes
(spec/30_encoding.md R87, R88). -/

namespace Sys2Proof

variable {c : Config}

theorem specConfig_wf : specConfig.wf = true := by decide

/-- The five inequalities of a well-formed configuration. -/
theorem Config.wf_iff : c.wf = true ↔
    c.opcLdaZp ≠ 0xA9#8 ∧ c.opcLdaZp ≠ 0xB5#8 ∧ c.opcJsr ≠ 0xA9#8 ∧ c.opcJsr ≠ 0xB5#8 ∧ c.opcJsr ≠ c.opcLdaZp := by
  simp [Config.wf, and_assoc]

theorem decodeWith_ldaImm (b1 b2 : Byte) : decodeWith c 0xA9#8 b1 b2 = .instr (.ldaImm b1) := if_pos rfl

theorem decodeWith_ldaZp (h : c.wf = true) (b1 b2 : Byte) :
    decodeWith c c.opcLdaZp b1 b2 = .instr (.ldaZp b1) := by
  unfold decodeWith
  rw [if_neg (Config.wf_iff.mp h).1, if_pos rfl]

theorem decodeWith_ldaZpX (h : c.wf = true) (b1 b2 : Byte) :
    decodeWith c 0xB5#8 b1 b2 = .instr (.ldaZpX b1) := by
  unfold decodeWith
  rw [if_neg (by decide), if_neg (Ne.symm (Config.wf_iff.mp h).2.1), if_pos rfl]

theorem decodeWith_jsr (h : c.wf = true) (b1 b2 : Byte) :
    decodeWith c c.opcJsr b1 b2 = .instr (.jsr (wordOf b2 b1)) := by
  obtain ⟨_, _, h9, h5, hzp⟩ := Config.wf_iff.mp h
  unfold decodeWith
  rw [if_neg h9, if_neg hzp, if_neg h5, if_pos rfl]

/-- Everything a decoded byte triple can be: which opcode byte it was, and where its operand came from. -/
theorem decodeWith_cases (c : Config) (b0 b1 b2 : Byte) :
    (b0 = 0xA9#8 ∧ decodeWith c b0 b1 b2 = .instr (.ldaImm b1)) ∨
    (b0 = c.opcLdaZp ∧ decodeWith c b0 b1 b2 = .instr (.ldaZp b1)) ∨
    (b0 = 0xB5#8 ∧ decodeWith c b0 b1 b2 = .instr (.ldaZpX b1)) ∨
    (b0 = c.opcJsr ∧ decodeWith c b0 b1 b2 = .instr (.jsr (wordOf b2 b1))) ∨
    ((b0 ≠ 0xA9#8 ∧ b0 ≠ c.opcLdaZp ∧ b0 ≠ 0xB5#8 ∧ b0 ≠ c.opcJsr) ∧ decodeWith c b0 b1 b2 = .unknown b0) := by
  unfold decodeWith
  by_cases h1 : b0 = 0xA9#8
  · exact .inl ⟨h1, if_pos h1⟩
  rw [if_neg h1]
  by_cases h2 : b0 = c.opcLdaZp
  · exact .inr (.inl ⟨h2, if_pos h2⟩)
  rw [if_neg h2]
  by_cases h3 : b0 = 0xB5#8
  · exact .inr (.inr (.inl ⟨h3, if_pos h3⟩))
  rw [if_neg h3]
  by_cases h4 : b0 = c.opcJsr
  · exact .inr (.inr (.inr (.inl ⟨h4, if_pos h4⟩)))
  · exact .inr (.inr (.inr (.inr ⟨⟨h1, h2, h3, h4⟩, if_neg h4⟩)))

end Sys2Proof
end

