-- ==== Sys2Proof/Laws/State.lean ====
section
/-! SUPPORT. One lemma per field per update of the state, so that no later proof unfolds a record update. -/

namespace Sys2Proof.Machine

variable (s : State)

@[simp] theorem State.setA_a (v : Byte) : (s.setA v).a = v := rfl
@[simp] theorem State.setA_x (v : Byte) : (s.setA v).x = s.x := rfl
@[simp] theorem State.setA_y (v : Byte) : (s.setA v).y = s.y := rfl
@[simp] theorem State.setA_sp (v : Byte) : (s.setA v).sp = s.sp := rfl
@[simp] theorem State.setA_pc (v : Byte) : (s.setA v).pc = s.pc := rfl
@[simp] theorem State.setA_p (v : Byte) : (s.setA v).p = s.p := rfl
@[simp] theorem State.setA_mem (v : Byte) : (s.setA v).mem = s.mem := rfl
@[simp] theorem State.setA_cyc (v : Byte) : (s.setA v).cyc = s.cyc := rfl
@[simp] theorem State.setA_diag (v : Byte) : (s.setA v).diag = s.diag := rfl

@[simp] theorem State.setX_a (v : Byte) : (s.setX v).a = s.a := rfl
@[simp] theorem State.setX_x (v : Byte) : (s.setX v).x = v := rfl
@[simp] theorem State.setX_y (v : Byte) : (s.setX v).y = s.y := rfl
@[simp] theorem State.setX_sp (v : Byte) : (s.setX v).sp = s.sp := rfl
@[simp] theorem State.setX_pc (v : Byte) : (s.setX v).pc = s.pc := rfl
@[simp] theorem State.setX_p (v : Byte) : (s.setX v).p = s.p := rfl
@[simp] theorem State.setX_mem (v : Byte) : (s.setX v).mem = s.mem := rfl
@[simp] theorem State.setX_cyc (v : Byte) : (s.setX v).cyc = s.cyc := rfl
@[simp] theorem State.setX_diag (v : Byte) : (s.setX v).diag = s.diag := rfl

@[simp] theorem State.setY_a (v : Byte) : (s.setY v).a = s.a := rfl
@[simp] theorem State.setY_x (v : Byte) : (s.setY v).x = s.x := rfl
@[simp] theorem State.setY_y (v : Byte) : (s.setY v).y = v := rfl
@[simp] theorem State.setY_sp (v : Byte) : (s.setY v).sp = s.sp := rfl
@[simp] theorem State.setY_pc (v : Byte) : (s.setY v).pc = s.pc := rfl
@[simp] theorem State.setY_p (v : Byte) : (s.setY v).p = s.p := rfl
@[simp] theorem State.setY_mem (v : Byte) : (s.setY v).mem = s.mem := rfl
@[simp] theorem State.setY_cyc (v : Byte) : (s.setY v).cyc = s.cyc := rfl
@[simp] theorem State.setY_diag (v : Byte) : (s.setY v).diag = s.diag := rfl

@[simp] theorem State.setSP_a (v : Byte) : (s.setSP v).a = s.a := rfl
@[simp] theorem State.setSP_x (v : Byte) : (s.setSP v).x = s.x := rfl
@[simp] theorem State.setSP_y (v : Byte) : (s.setSP v).y = s.y := rfl
@[simp] theorem State.setSP_sp (v : Byte) : (s.setSP v).sp = v := rfl
@[simp] theorem State.setSP_pc (v : Byte) : (s.setSP v).pc = s.pc := rfl
@[simp] theorem State.setSP_p (v : Byte) : (s.setSP v).p = s.p := rfl
@[simp] theorem State.setSP_mem (v : Byte) : (s.setSP v).mem = s.mem := rfl
@[simp] theorem State.setSP_cyc (v : Byte) : (s.setSP v).cyc = s.cyc := rfl
@[simp] theorem State.setSP_diag (v : Byte) : (s.setSP v).diag = s.diag := rfl

@[simp] theorem State.setPC_a (v : Addr) : (s.setPC v).a = s.a := rfl
@[simp] theorem State.setPC_x (v : Addr) : (s.setPC v).x = s.x := rfl
@[simp] theorem State.setPC_y (v : Addr) : (s.setPC v).y = s.y := rfl
@[simp] theorem State.setPC_sp (v : Addr) : (s.setPC v).sp = s.sp := rfl
@[simp] theorem State.setPC_pc (v : Addr) : (s.setPC v).pc = v := rfl
@[simp] theorem State.setPC_p (v : Addr) : (s.setPC v).p = s.p := rfl
@[simp] theorem State.setPC_mem (v : Addr) : (s.setPC v).mem = s.mem := rfl
@[simp] theorem State.setPC_cyc (v : Addr) : (s.setPC v).cyc = s.cyc := rfl
@[simp] theorem State.setPC_diag (v : Addr) : (s.setPC v).diag = s.diag := rfl

@[simp] theorem State.setP_a (v : Byte) : (s.setP v).a = s.a := rfl
@[simp] theorem State.setP_x (v : Byte) : (s.setP v).x = s.x := rfl
@[simp] theorem State.setP_y (v : Byte) : (s.setP v).y = s.y := rfl
@[simp] theorem State.setP_sp (v : Byte) : (s.setP v).sp = s.sp := rfl
@[simp] theorem State.setP_pc (v : Byte) : (s.setP v).pc = s.pc := rfl
@[simp] theorem State.setP_p (v : Byte) : (s.setP v).p = v := rfl
@[simp] theorem State.setP_mem (v : Byte) : (s.setP v).mem = s.mem := rfl
@[simp] theorem State.setP_cyc (v : Byte) : (s.setP v).cyc = s.cyc := rfl
@[simp] theorem State.setP_diag (v : Byte) : (s.setP v).diag = s.diag := rfl

@[simp] theorem State.setMem_a (v : Memory) : (s.setMem v).a = s.a := rfl
@[simp] theorem State.setMem_x (v : Memory) : (s.setMem v).x = s.x := rfl
@[simp] theorem State.setMem_y (v : Memory) : (s.setMem v).y = s.y := rfl
@[simp] theorem State.setMem_sp (v : Memory) : (s.setMem v).sp = s.sp := rfl
@[simp] theorem State.setMem_pc (v : Memory) : (s.setMem v).pc = s.pc := rfl
@[simp] theorem State.setMem_p (v : Memory) : (s.setMem v).p = s.p := rfl
@[simp] theorem State.setMem_mem (v : Memory) : (s.setMem v).mem = v := rfl
@[simp] theorem State.setMem_cyc (v : Memory) : (s.setMem v).cyc = s.cyc := rfl
@[simp] theorem State.setMem_diag (v : Memory) : (s.setMem v).diag = s.diag := rfl

@[simp] theorem State.setCyc_a (v : Int) : (s.setCyc v).a = s.a := rfl
@[simp] theorem State.setCyc_x (v : Int) : (s.setCyc v).x = s.x := rfl
@[simp] theorem State.setCyc_y (v : Int) : (s.setCyc v).y = s.y := rfl
@[simp] theorem State.setCyc_sp (v : Int) : (s.setCyc v).sp = s.sp := rfl
@[simp] theorem State.setCyc_pc (v : Int) : (s.setCyc v).pc = s.pc := rfl
@[simp] theorem State.setCyc_p (v : Int) : (s.setCyc v).p = s.p := rfl
@[simp] theorem State.setCyc_mem (v : Int) : (s.setCyc v).mem = s.mem := rfl
@[simp] theorem State.setCyc_cyc (v : Int) : (s.setCyc v).cyc = v := rfl
@[simp] theorem State.setCyc_diag (v : Int) : (s.setCyc v).diag = s.diag := rfl

@[simp] theorem State.setDiag_a (v : List Event) : (s.setDiag v).a = s.a := rfl
@[simp] theorem State.setDiag_x (v : List Event) : (s.setDiag v).x = s.x := rfl
@[simp] theorem State.setDiag_y (v : List Event) : (s.setDiag v).y = s.y := rfl
@[simp] theorem State.setDiag_sp (v : List Event) : (s.setDiag v).sp = s.sp := rfl
@[simp] theorem State.setDiag_pc (v : List Event) : (s.setDiag v).pc = s.pc := rfl
@[simp] theorem State.setDiag_p (v : List Event) : (s.setDiag v).p = s.p := rfl
@[simp] theorem State.setDiag_mem (v : List Event) : (s.setDiag v).mem = s.mem := rfl
@[simp] theorem State.setDiag_cyc (v : List Event) : (s.setDiag v).cyc = s.cyc := rfl
@[simp] theorem State.setDiag_diag (v : List Event) : (s.setDiag v).diag = v := rfl

end Sys2Proof.Machine
end

