-- ==== Sys2Proof/Laws/Ops.lean ====
section
/-! SUPPORT. One equation per shared operation: the whole state it leaves.  A proof cites these and
never unfolds the operation. -/

namespace Sys2Proof.Machine

variable (s : State)

/-- R100. -/
theorem charge_eq (n : Nat) : charge n s = { s with cyc := s.cyc - n } := rfl

/-- R101. -/
theorem fetchByte_eq : fetchByte s = (s.mem.read s.pc, { s with pc := s.pc + 1#16, cyc := s.cyc - 1 }) := rfl

/-- R103. -/
theorem readByte_eq (a : Addr) : readByte a s = (s.mem.read a, { s with cyc := s.cyc - 1 }) := rfl

/-- R104. -/
theorem writeWordCharged_eq (a w : Addr) :
    writeWordCharged a w s = { s with mem := s.mem.writeWord a w, cyc := s.cyc - 2 } := rfl

/-- The bytes of an instruction consumed. -/
theorem consume_eq (n : Nat) :
    consume n s = { s with pc := s.pc + BitVec.ofNat 16 n, cyc := s.cyc - n } := rfl

/-- One `FetchByte` is one byte consumed (R101). -/
theorem fetchByte_state : (fetchByte s).2 = consume 1 s := rfl

/-- Two runs of bytes consumed are one (R26, R100). -/
theorem consume_consume (m n : Nat) : consume n (consume m s) = consume (m + n) s := by
  simp only [consume_eq, BitVec.ofNat_add, State.mk.injEq, true_and, and_true]
  exact ⟨by rw [BitVec.add_assoc], by push_cast; omega⟩

/-- The end of every load. -/
theorem loadA_eq (c : Config) (v : Byte) :
    loadA c v s = { s with a := v, p := setZN c.flagUpdateMode v s.p } := rfl

/-- R124, after the instruction's bytes are consumed. -/
theorem ldaImmWith_eq (c : Config) (imm8 : Byte) :
    ldaImmWith c imm8 s = { s with a := imm8, p := setZN c.flagUpdateMode imm8 s.p } := rfl

/-- R125, after the instruction's bytes are consumed. -/
theorem ldaZpWith_eq (c : Config) (zp8 : Byte) :
    ldaZpWith c zp8 s =
      { s with a := s.mem.read (eaZp zp8), p := setZN c.flagUpdateMode (s.mem.read (eaZp zp8)) s.p, cyc := s.cyc - 1 } :=
  rfl

/-- R126, after the instruction's bytes are consumed. -/
theorem ldaZpXWith_eq (c : Config) (zp8 : Byte) :
    ldaZpXWith c zp8 s =
      { s with
        a := s.mem.read (eaZpX zp8 s.x)
        p := setZN c.flagUpdateMode (s.mem.read (eaZpX zp8 s.x)) s.p
        cyc := s.cyc - 1 - 1 } := rfl

/-- R145, after the instruction's bytes are consumed. -/
theorem jsrWith_eq (c : Config) (target : Addr) :
    jsrWith c target s =
      { s with
        mem := s.mem.writeWord (stackAddr s.sp) (s.pc - 1#16)
        sp := s.sp + c.jsrSpDelta
        pc := target
        cyc := s.cyc - 2 - 1 } := rfl

/-- R150. -/
theorem raiseUnsupported_eq (op : Byte) :
    raiseUnsupported op s = { s with diag := s.diag ++ [.unsupported op] } := rfl

/-- R110, the whole step. -/
theorem unknownOpcode_eq (op : Byte) :
    unknownOpcode op s = { s with pc := s.pc + 1#16, cyc := s.cyc - 1, diag := s.diag ++ [.unsupported op] } := rfl

end Sys2Proof.Machine
end

