-- ==== Sys2Proof/Machine/Parametric.lean ====
section
/-! DEFINITION. The machine at any configuration of spec/00_scope.md R7: `exec` and `step` are the
members of this family at `specConfig`. -/

namespace Sys2Proof.Machine

/-- The whole step of an instruction at configuration `c`; no instruction stops (R112). -/
def execWith (c : Config) (i : Instr) (s : State) : State :=
  match i with
  | .ldaImm imm8 => ldaImmWith c imm8 (consume 2 s)
  | .ldaZp zp8 => ldaZpWith c zp8 (consume 2 s)
  | .ldaZpX zp8 => ldaZpXWith c zp8 (consume 2 s)
  | .jsr target => jsrWith c target (consume 3 s)

/-- One step at configuration `c` (R105, R106). -/
def stepWith (c : Config) (s : State) : Host.Outcome State Fault Refusal :=
  if Running s then
    match decodeAt c s with
    | .instr i => .next (execWith c i s)
    | .unknown op => .next (unknownOpcode op s)
  else .fault .halted

end Sys2Proof.Machine
end

