-- ==== Sys2Proof/Machine/Execute.lean ====
section
/-! DEFINITION. The budget-driven loop (spec/40_execute_loop.md R106 to R111). -/

namespace Sys2Proof.Machine

/-- `while CYC > 0: Step()`, for at most `fuel` steps of the machine `st`: the budget is tested before
each step and nowhere else (R107).  It ends with the state at which the test failed, or with the
first stop of `st`. -/
def runLoop (st : State → Host.Outcome State Fault Refusal) : Nat → State → Host.Outcome State Fault Refusal
  | 0, s => .next s
  | fuel + 1, s =>
    if Running s then
      match st s with
      | .next t => runLoop st fuel t
      | .fault r => .fault r
      | .refused r => .refused r
    else .next s

/-- `Execute(b)` at configuration `c` (R107): load the budget, then loop.  The fuel is `max(b, 0)`, which is as many steps as
there can be: "Every step charges at least 1 cycle, so `Execute(b)` takes at most `max(b, 0)` steps"
(R109).  The remaining budget the host reads is the `CYC` of the state it answers (R175). -/
def execute (c : Config) (b : Int) (s : State) : Host.Outcome State Fault Refusal :=
  runLoop (stepWith c) b.toNat (s.setCyc b)

end Sys2Proof.Machine
end

