-- ==== Sys2Proof/Machine/HostInterface.lean ====
section
/-! DEFINITION. What the outside world can do to the core, all of it while the core is Halted
(spec/70_reset_and_hazards.md R170 to R178). -/

namespace Sys2Proof.Machine

/-- `Reset()` (R170): exactly these six registers; `CYC`, `M` and `DIAG` are kept. -/
def resetRegisters (c : Config) (s : State) : State :=
  { s with a := 0x00#8, x := 0x00#8, y := 0x00#8, p := 0x00#8, sp := c.spReset, pc := 0xFFFC#16 }

/-- Memory initialisation: `M[a] <- 0x00` for all `a` (R172). -/
def initMemory (s : State) : State := s.setMem []

/-- The host's interactions, the rows of R174's table, the register preset once per register and each
value at its register's width (R176). -/
inductive HostOp where
  /-- memory init -/
  | memInit
  /-- load image: direct writes in order -/
  | loadImage (image : List (Addr × Byte))
  /-- `Reset()` -/
  | reset
  /-- preset `A` -/
  | presetA (v : Byte)
  /-- preset `X` -/
  | presetX (v : Byte)
  /-- preset `Y` -/
  | presetY (v : Byte)
  /-- preset `SP` -/
  | presetSP (v : Byte)
  /-- preset `PC` -/
  | presetPC (v : Addr)
  /-- preset `P` -/
  | presetP (v : Byte)
  /-- inspect: the host reads any register or byte, and the core does nothing -/
  | inspect
  /-- `Execute(b)` -/
  | execute (b : Int)
  deriving DecidableEq, Repr

/-- One interaction, at configuration `c`.  While the core is Running the host has no move: the refusal `hostWhileRunning`
(R62, R174, D15; log entry 9). -/
def hostAct (c : Config) (op : HostOp) (s : State) : Host.Outcome State Fault Refusal :=
  if Running s then .refused .hostWhileRunning
  else match op with
    | .memInit => .next (initMemory s)
    | .loadImage image => .next (s.setMem (s.mem.load image))
    | .reset => .next (resetRegisters c s)
    | .presetA v => .next (s.setA v)
    | .presetX v => .next (s.setX v)
    | .presetY v => .next (s.setY v)
    | .presetSP v => .next (s.setSP v)
    | .presetPC v => .next (s.setPC v)
    | .presetP v => .next (s.setP v)
    | .inspect => .next s
    | .execute b => Sys2Proof.Machine.execute c b s

/-- A session: the interactions in order, up to the first stop (R173, R174). -/
def hostSession (c : Config) : List HostOp → State → Host.Outcome State Fault Refusal
  | [], s => .next s
  | op :: rest, s =>
    match hostAct c op s with
    | .next t => hostSession c rest t
    | .fault r => .fault r
    | .refused r => .refused r

end Sys2Proof.Machine
end

