-- ==== Sys2Proof/Laws/Step.lean ====
section
/-! SUPPORT. What a step, a loop and a host operation can do, said once. -/

namespace Sys2Proof.Machine

/-- `exec` is the member of the family `execWith` at `specConfig`; it always answers a next state. -/
theorem exec_eq_execWith (i : Instr) (s : State) : exec i s = .next (execWith specConfig i s) := by
  cases i <;> rfl

/-- The whole state LDA immediate leaves (R124). -/
theorem execWith_ldaImm (c : Config) (imm8 : Byte) (s : State) :
    execWith c (.ldaImm imm8) s =
      { s with a := imm8, p := setZN c.flagUpdateMode imm8 s.p, pc := s.pc + 2#16, cyc := s.cyc - 2 } := rfl

/-- The whole state LDA zero page leaves (R125). -/
theorem execWith_ldaZp (c : Config) (zp8 : Byte) (s : State) :
    execWith c (.ldaZp zp8) s =
      { s with
        a := s.mem.read (eaZp zp8)
        p := setZN c.flagUpdateMode (s.mem.read (eaZp zp8)) s.p
        pc := s.pc + 2#16
        cyc := s.cyc - 3 } := by
  simp only [execWith, consume_eq, ldaZpWith_eq, State.mk.injEq, true_and, and_true]
  push_cast
  omega

/-- The whole state LDA zero page,X leaves (R126). -/
theorem execWith_ldaZpX (c : Config) (zp8 : Byte) (s : State) :
    execWith c (.ldaZpX zp8) s =
      { s with
        a := s.mem.read (eaZpX zp8 s.x)
        p := setZN c.flagUpdateMode (s.mem.read (eaZpX zp8 s.x)) s.p
        pc := s.pc + 2#16
        cyc := s.cyc - 4 } := by
  simp only [execWith, consume_eq, ldaZpXWith_eq, State.mk.injEq, true_and, and_true]
  push_cast
  omega

/-- The whole state JSR leaves; the word stored is the address of its own last byte (R142, R145). -/
theorem execWith_jsr (c : Config) (target : Addr) (s : State) :
    execWith c (.jsr target) s =
      { s with
        mem := s.mem.writeWord (stackAddr s.sp) (s.pc + 2#16)
        sp := s.sp + c.jsrSpDelta
        pc := target
        cyc := s.cyc - 6 } := by
  have hword : s.pc + BitVec.ofNat 16 3 - 1#16 = s.pc + 2#16 := by bv_omega
  simp only [execWith, consume_eq, jsrWith_eq, hword, State.mk.injEq, true_and, and_true]
  push_cast
  omega

/-- `step` is the member of the family `stepWith` at `specConfig`. -/
theorem step_eq_stepWith (s : State) : step s = stepWith specConfig s := by
  unfold step stepWith
  split
  · cases decodeAt specConfig s <;> simp [exec_eq_execWith]
  · rfl

/-- The state a running step leaves. -/
def nextWith (c : Config) (s : State) : State :=
  match decodeAt c s with
  | .instr i => execWith c i s
  | .unknown op => unknownOpcode op s

theorem stepWith_of_running {c : Config} {s : State} (h : Running s) : stepWith c s = .next (nextWith c s) := by
  unfold stepWith nextWith
  rw [if_pos h]
  cases decodeAt c s <;> rfl

theorem step_of_running {s : State} (h : Running s) : step s = .next (nextWith specConfig s) := by
  rw [step_eq_stepWith, stepWith_of_running h]

theorem stepWith_of_halted {c : Config} {s : State} (h : ¬ Running s) : stepWith c s = .fault .halted := if_neg h

/-- The inversion of a step: if it answers a next state then the core was Running, and the next state
is one of the five the spec lists, told apart by the byte at `PC`. -/
theorem stepWith_cases {c : Config} {s t : State} (h : stepWith c s = .next t) :
    Running s ∧
    ((s.mem.read s.pc = 0xA9#8 ∧ t = execWith c (.ldaImm (s.mem.read (s.pc + 1#16))) s) ∨
     (s.mem.read s.pc = c.opcLdaZp ∧ t = execWith c (.ldaZp (s.mem.read (s.pc + 1#16))) s) ∨
     (s.mem.read s.pc = 0xB5#8 ∧ t = execWith c (.ldaZpX (s.mem.read (s.pc + 1#16))) s) ∨
     (s.mem.read s.pc = c.opcJsr ∧
       t = execWith c (.jsr (wordOf (s.mem.read (s.pc + 2#16)) (s.mem.read (s.pc + 1#16)))) s) ∨
     ((s.mem.read s.pc ≠ 0xA9#8 ∧ s.mem.read s.pc ≠ c.opcLdaZp ∧ s.mem.read s.pc ≠ 0xB5#8 ∧ s.mem.read s.pc ≠ c.opcJsr) ∧
       t = unknownOpcode (s.mem.read s.pc) s)) := by
  by_cases hr : Running s
  · refine ⟨hr, ?_⟩
    rw [stepWith_of_running hr] at h
    obtain rfl : nextWith c s = t := by injection h
    unfold nextWith decodeAt
    rcases decodeWith_cases c (s.mem.read s.pc) (s.mem.read (s.pc + 1#16)) (s.mem.read (s.pc + 2#16)) with
      ⟨h0, hd⟩ | ⟨h0, hd⟩ | ⟨h0, hd⟩ | ⟨h0, hd⟩ | ⟨h0, hd⟩ <;> rw [hd]
    · exact .inl ⟨h0, rfl⟩
    · exact .inr (.inl ⟨h0, rfl⟩)
    · exact .inr (.inr (.inl ⟨h0, rfl⟩))
    · exact .inr (.inr (.inr (.inl ⟨h0, rfl⟩)))
    · exact .inr (.inr (.inr (.inr ⟨h0, rfl⟩)))
  · rw [stepWith_of_halted hr] at h
    cases h

/-- The loop has nothing to do in Halted, whatever the fuel (R107). -/
theorem runLoop_of_halted {st : State → Host.Outcome State Fault Refusal} {s : State} (h : ¬ Running s)
    (fuel : Nat) : runLoop st fuel s = .next s := by
  cases fuel with
  | zero => rfl
  | succ n => exact if_neg h

/-- One turn of the loop (R107). -/
theorem runLoop_of_running {st : State → Host.Outcome State Fault Refusal} {s t : State} (h : Running s)
    (hst : st s = .next t) (fuel : Nat) : runLoop st (fuel + 1) s = runLoop st fuel t := by
  simp only [runLoop, if_pos h, hst]

/-- A host operation while Running is refused (R62). -/
theorem hostAct_of_running {s : State} (h : Running s) (c : Config) (op : HostOp) : hostAct c op s = .refused .hostWhileRunning :=
  if_pos h

/-- The state right after reset is the reset operation on a fresh, Halted machine (R36, R170). -/
theorem reset_eq_resetRegisters (c : Config) : resetRegisters c (State.resetWith c) = State.resetWith c := rfl

end Sys2Proof.Machine
end

