-- ==== Sys2Proof/Machine/Pseudocode.lean ====
section
/-! DEFINITION. The spec's pseudocode of a step, statement by statement, at any configuration: the
opcode is fetched by `FetchByte`, the dispatch compares it, and each handler fetches its own operand
(R105, R110, R124 to R126, R145).  `step` decodes first and then has the instruction's whole effect;
that the two agree is a statement for the provers. -/

namespace Sys2Proof.Machine

/-- `LDA_IMM()` (R124). -/
def pseudoLdaImm (c : Config) (s : State) : State :=
  let (v, s) := fetchByte s
  let s := s.setA v
  s.setP (setZN c.flagUpdateMode v s.p)

/-- `LDA_ZP()` (R125). -/
def pseudoLdaZp (c : Config) (s : State) : State :=
  let (zp8, s) := fetchByte s
  let ea := eaZp zp8
  let (v, s) := readByte ea s
  let s := s.setA v
  s.setP (setZN c.flagUpdateMode v s.p)

/-- `LDA_ZPX()` (R126). -/
def pseudoLdaZpX (c : Config) (s : State) : State :=
  let (zp8, s) := fetchByte s
  let sum := zp8 + s.x
  let s := charge 1 s
  let ea : Addr := sum.setWidth 16
  let (v, s) := readByte ea s
  let s := s.setA v
  s.setP (setZN c.flagUpdateMode v s.p)

/-- `JSR_ABS()` (R145). -/
def pseudoJsr (c : Config) (s : State) : State :=
  let (target, s) := fetchWord s
  let w := s.pc - 1#16
  let s := writeWordCharged (stackAddr s.sp) w s
  let s := s.setSP (s.sp + c.jsrSpDelta)
  let s := s.setPC target
  charge 1 s

/-- `Step()` (R105), `Unknown(op)` being `raise Unsupported(op)` (R110). -/
def pseudoStep (c : Config) (s : State) : State :=
  let (op, s) := fetchByte s
  if op = 0xA9#8 then pseudoLdaImm c s
  else if op = c.opcLdaZp then pseudoLdaZp c s
  else if op = 0xB5#8 then pseudoLdaZpX c s
  else if op = c.opcJsr then pseudoJsr c s
  else raiseUnsupported op s

end Sys2Proof.Machine
end

