-- ==== Sys2Proof/Safety.lean ====
section
/-! DEFINITION. The terms the claims use: what each kind of step does and leaves alone, what an
invariant of the machine says, and what a safe outcome is. -/

namespace Sys2Proof.Machine

/-- A safe outcome: a next state, or the Halted state's lack of a step; nothing else ever stops the
core (R106, R112, R154). -/
def SafeOutcome : Host.Outcome State Fault Refusal → Prop
  | .next _ => True
  | .fault .halted => True
  | .refused _ => False

/-- Every byte of memory reads as before, but for the addresses in `stored`. -/
def MemoryKeptOutside (stored : List Addr) (s t : State) : Prop :=
  ∀ addr : Addr, addr ∉ stored → t.mem.read addr = s.mem.read addr

/-- What a load of the byte `v` by an instruction of 2 bytes and `cycles` cycles does to `s`, at
configuration `c`, and what it leaves alone (R123 to R126). -/
structure LoadEffect (c : Config) (v : Byte) (cycles : Nat) (s t : State) : Prop where
  accumulator : t.a = v
  /-- the flags, default mode -/
  flagsClear : c.flagUpdateMode = .clearThenSet → flag .z t.p = decide (v = 0x00#8) ∧ flag .n t.p = v.getLsbD 7
  /-- the flags, legacy mode -/
  flagsSetOnly : c.flagUpdateMode = .setOnly →
    flag .z t.p = (decide (v = 0x00#8) || flag .z s.p) ∧ flag .n t.p = (v.getLsbD 7 || flag .n s.p)
  otherFlags : ∀ f, f ≠ .z → f ≠ .n → flag f t.p = flag f s.p
  counter : t.pc = s.pc + 2#16
  budget : t.cyc = s.cyc - cycles
  indexX : t.x = s.x
  indexY : t.y = s.y
  stack : t.sp = s.sp
  memory : MemoryKeptOutside [] s t
  diagnostics : t.diag = s.diag

/-- The word a JSR at `PC` stores: the address of its own last byte (R142). -/
def returnWord (s : State) : Addr := s.pc + 2#16

/-- What a JSR to `target` does to `s` at configuration `c`, and what it leaves alone (R140 to R145). -/
structure JsrEffect (c : Config) (target : Addr) (s t : State) : Prop where
  counter : t.pc = target
  storedLow : t.mem.read (stackAddr s.sp) = loByte (returnWord s)
  storedHigh : t.mem.read (stackAddr s.sp + 1#16) = hiByte (returnWord s)
  memory : MemoryKeptOutside [stackAddr s.sp, stackAddr s.sp + 1#16] s t
  stack : t.sp = s.sp + c.jsrSpDelta
  budget : t.cyc = s.cyc - 6
  accumulator : t.a = s.a
  indexX : t.x = s.x
  indexY : t.y = s.y
  status : t.p = s.p
  diagnostics : t.diag = s.diag

/-- What an unknown opcode `op` does to `s`, and what it leaves alone (R88, R110, R150). -/
structure UnknownEffect (op : Byte) (s t : State) : Prop where
  counter : t.pc = s.pc + 1#16
  budget : t.cyc = s.cyc - 1
  diagnostics : t.diag = s.diag ++ [.unsupported op]
  accumulator : t.a = s.a
  indexX : t.x = s.x
  indexY : t.y = s.y
  stack : t.sp = s.sp
  status : t.p = s.p
  memory : MemoryKeptOutside [] s t

/-- `op` is an unknown opcode of the spec's own opcode map (R88). -/
def UnknownOpcode (op : Byte) : Prop := op ≠ 0x20#8 ∧ op ≠ 0xA5#8 ∧ op ≠ 0xA9#8 ∧ op ≠ 0xB5#8

/-- What holds at reset and after every step, in the default flag mode: the memory is in canonical
form; `N` is bit 7 of `A`, and `Z` is set only over a zero `A` (R28, R29); the six other flags hold 0
(R30); every diagnostic names an unknown opcode (R150); the budget is at least -5 (R31). -/
structure Inv (s : State) : Prop where
  memory : s.mem.wf = true
  negative : flag .n s.p = s.a.getLsbD 7
  zero : flag .z s.p = true → s.a = 0x00#8
  inert : ∀ f, f ≠ .z → f ≠ .n → flag f s.p = false
  diagnostics : ∀ op, .unsupported op ∈ s.diag → UnknownOpcode op
  budget : -5 ≤ s.cyc

/-- Two states that agree on everything an instruction reads, apart from the budget: `X`, `SP`, `PC` and
memory (the column "read by instructions" of R20). -/
structure SameReads (s s' : State) : Prop where
  indexX : s.x = s'.x
  stack : s.sp = s'.sp
  counter : s.pc = s'.pc
  memory : s.mem = s'.mem

end Sys2Proof.Machine
end

