-- ==== Sys2Proof/Certificates/Slice0/Obligations.lean ====
section
/-! DEFINITION. The statements for the provers.  `R<n>` is a rule of spec/, `D<n>` a row of
spec/92_eei_decisions.md (the spec's own choice), "log <n>" the row notes/assumptions/<n>.md.  A
statement "at every configuration" quantifies over the parameters of R7, so that it rests on none of
the choices D1, D3, D5, D8. -/

open Sys2Proof Sys2Proof.Machine

/-! ## Encoding -/

/-- The byte strings of R90 and the opcode map of R87 decode to what they stand for, and the neighbours
listed under spec/95_test_vectors.md §2.5 and R88 are unknown.  The bytes 0xA5 and 0x20 are D8 (log 5). -/
def Obligations.SpecWordsDecode : Prop :=
  (∀ b2, decode 0b10101001#8 0x84#8 b2 = .instr (.ldaImm 0x84#8)) ∧
  (∀ b2, decode 0b10100101#8 0x80#8 b2 = .instr (.ldaZp 0x80#8)) ∧
  (∀ b2, decode 0b10110101#8 0x80#8 b2 = .instr (.ldaZpX 0x80#8)) ∧
  decode 0b00100000#8 0x34#8 0x12#8 = .instr (.jsr 0x1234#16) ∧
  (∀ op ∈ ([0xA8#8, 0xAA#8, 0xA4#8, 0xA6#8, 0xB4#8, 0xB6#8, 0x1F#8, 0x21#8, 0xAD#8, 0xBD#8, 0xB9#8, 0xA1#8, 0xB1#8,
      0x00#8, 0xEA#8, 0x60#8, 0x4C#8, 0xA2#8, 0xA0#8, 0x40#8] : List Byte),
    ∀ b1 b2, decode op b1 b2 = .unknown op)

/-- At every well-formed configuration, decoding an encoded instruction gives that instruction back,
every operand at every value, and leaves exactly the bytes that follow it. -/
def Obligations.DecodeEncodeRoundTrip : Prop :=
  ∀ c : Config, c.wf = true → ∀ (i : Instr) (rest : List Byte),
    decodeBytesWith c (encodeWith c i ++ rest) = some (.instr i, rest)

/-- At every configuration, three bytes that decode to an instruction begin with its encoding: a word
has one meaning and no byte of it is dropped. -/
def Obligations.EncodeDecodeRoundTrip : Prop :=
  ∀ (c : Config) (b0 b1 b2 : Byte) (i : Instr), decodeWith c b0 b1 b2 = .instr i →
    encodeWith c i = [b0, b1, b2].take (Decoded.instr i).length

/-- A run of bytes is refused only where it ends inside an instruction; otherwise what is decoded
has the length the opcode byte alone gives, and that many bytes are used up. -/
def Obligations.DecodingEveryByteRun : Prop :=
  ∀ (c : Config) (op : Byte) (more : List Byte),
    (decodeBytesWith c (op :: more) = none ↔ more.length + 1 < lengthWith c op) ∧
    (∀ d rest, decodeBytesWith c (op :: more) = some (d, rest) →
      d.length = lengthWith c op ∧ (op :: more).drop d.length = rest ∧
        (op :: more).length = d.length + rest.length)

/-- The opcode byte alone gives the length: 2 for the loads, 3 for JSR, 1 for an unknown opcode, and the
bytes past that length play no part (R81).  At every configuration. -/
def Obligations.OpcodeAloneGivesLength : Prop :=
  ∀ (c : Config) (b0 b1 b2 : Byte),
    (decodeWith c b0 b1 b2).length = lengthWith c b0 ∧
    (∀ i, decodeWith c b0 b1 b2 = .instr i →
      lengthWith c b0 = match i with
        | .ldaImm _ => 2
        | .ldaZp _ => 2
        | .ldaZpX _ => 2
        | .jsr _ => 3) ∧
    (∀ op, decodeWith c b0 b1 b2 = .unknown op → op = b0 ∧ lengthWith c b0 = 1) ∧
    (∀ b1' b2', (2 ≤ lengthWith c b0 → b1' = b1) → (3 ≤ lengthWith c b0 → b2' = b2) →
      decodeWith c b0 b1' b2' = decodeWith c b0 b1 b2)

/-- Exactly four opcode bytes select an instruction; each of the 252 others is unknown (R88).  Two of the
four bytes are D8 (log 5). -/
def Obligations.ExactlyFourOpcodes : Prop :=
  (∀ b0 b1 b2, decode b0 b1 b2 = .unknown b0 ↔ UnknownOpcode b0) ∧
  (∀ b0 b1 b2, (∃ i, decode b0 b1 b2 = .instr i) ↔ b0 ∈ ([0xA9#8, 0xA5#8, 0xB5#8, 0x20#8] : List Byte)) ∧
  (∀ b1 b2, ((List.range 256).filter fun n => decide (decode (BitVec.ofNat 8 n) b1 b2 = .unknown (BitVec.ofNat 8 n))).length = 252)

/-- Operand assembly: nothing is sign-extended, scaled or shifted; the byte of IMM8 is the value loaded,
those of ZP8 give the address loaded from, those of ABS16 the target (R86). -/
def Obligations.OperandAssembly : Prop :=
  (∀ zp8 : Byte, (eaZp zp8).toNat = zp8.toNat) ∧
  (∀ zp8 x : Byte, (eaZpX zp8 x).toNat = (zp8.toNat + x.toNat) % 256) ∧
  (∀ (c : Config) (b0 b1 b2 : Byte) (imm8 : Byte), decodeWith c b0 b1 b2 = .instr (.ldaImm imm8) → imm8 = b1) ∧
  (∀ (c : Config) (b0 b1 b2 : Byte) (zp8 : Byte),
    decodeWith c b0 b1 b2 = .instr (.ldaZp zp8) ∨ decodeWith c b0 b1 b2 = .instr (.ldaZpX zp8) → zp8 = b1) ∧
  (∀ (c : Config) (b0 lo8 hi8 : Byte) (target : Addr), decodeWith c b0 lo8 hi8 = .instr (.jsr target) →
    target.toNat = hi8.toNat * 256 + lo8.toNat) ∧
  (∀ (imm8 zp8 : Byte) (target : Addr) (s : State), ∃ t1 t2 t3 t4,
    exec (.ldaImm imm8) s = .next t1 ∧ t1.a = imm8 ∧
    exec (.ldaZp zp8) s = .next t2 ∧ t2.a = s.mem.read (eaZp zp8) ∧
    exec (.ldaZpX zp8) s = .next t3 ∧ t3.a = s.mem.read (eaZpX zp8 s.x) ∧
    exec (.jsr target) s = .next t4 ∧ t4.pc = target)

/-! ## Memory -/

/-- The word store is little-endian, wraps at 0xFFFF, and changes its two bytes only; the word read there
is the word stored (R55, R56; the wrap is D9, log 6). -/
def Obligations.WordStoreIsLittleEndian : Prop :=
  ∀ (m : Memory) (a w : Addr),
    (m.writeWord a w).readWord a = w ∧
    ((m.writeWord a w).read a).toNat = w.toNat % 256 ∧
    ((m.writeWord a w).read (a + 1#16)).toNat = w.toNat / 256 ∧
    ∀ b : Addr, b ≠ a → b ≠ a + 1#16 → (m.writeWord a w).read b = m.read b

/-- Canonical memories that read alike at every address are the same list: equal memories are equal
data, and a canonical memory lists no address outside the 65536 bytes of R33 (log 7: the form is the
model's). -/
def Obligations.CanonicalMemoryIsUnique : Prop :=
  ∀ m m' : Memory, m.wf = true → m'.wf = true → (∀ a : Addr, m.read a = m'.read a) → m = m'

/-- A loaded image reads as its last write to each address, and as 0x00 where a freshly initialised
memory was not written (R53, R67, R172).  That the list the model holds is canonical is a clause about
the model's own form of memory (log 7). -/
def Obligations.LoadedImageReads : Prop :=
  ∀ (c : Config) (s : State) (image : List (Addr × Byte)), ¬ Running s →
    ∃ t, hostSession c [.memInit, .loadImage image] s = .next t ∧
      (∀ a : Addr, t.mem.read a = ((image.reverse.find? fun w => w.1 == a).map Prod.snd).getD 0x00#8) ∧
      t.mem.wf = true ∧ t = s.setMem t.mem

/-! ## The status register -/

/-- The flag update in both modes: the two flags, the six others untouched, when the modes differ,
that one load never sets both flags, and that two loads can under `set_only` (R123; the default mode is
D1, log 5). -/
def Obligations.FlagUpdate : Prop :=
  (∀ v p : Byte, flag .z (setZN .clearThenSet v p) = decide (v = 0x00#8) ∧
    flag .n (setZN .clearThenSet v p) = v.getLsbD 7) ∧
  (∀ v p : Byte, flag .z (setZN .setOnly v p) = (decide (v = 0x00#8) || flag .z p) ∧
    flag .n (setZN .setOnly v p) = (v.getLsbD 7 || flag .n p)) ∧
  (∀ (mode : FlagUpdateMode) (v p : Byte) (f : Flag), f ≠ .z → f ≠ .n → flag f (setZN mode v p) = flag f p) ∧
  (∀ v p : Byte, setZN .clearThenSet v p ≠ setZN .setOnly v p ↔
    (flag .z p = true ∧ v ≠ 0x00#8) ∨ (flag .n p = true ∧ v.getLsbD 7 = false)) ∧
  (∀ v p : Byte, ¬ (flag .z (setZN .clearThenSet v p) = true ∧ flag .n (setZN .clearThenSet v p) = true)) ∧
  (∃ v w : Byte, flag .z (setZN .setOnly w (setZN .setOnly v 0x00#8)) = true ∧
    flag .n (setZN .setOnly w (setZN .setOnly v 0x00#8)) = true)

/-- `Z` and `N` are written by every LDA and by nothing else: after a load `Z` says the loaded byte is 0
and `N` is its bit 7, after any other step `P` and `A` are as before; and no step reads `P`, whose value
before decides nothing but `P` itself (R28, R29).  At every configuration of mode `clear_then_set`. -/
def Obligations.OnlyLoadsWriteFlags : Prop :=
  ∀ (c : Config) (s t : State), c.flagUpdateMode = .clearThenSet → stepWith c s = .next t →
    (match decodeAt c s with
    | .instr (.ldaImm _) | .instr (.ldaZp _) | .instr (.ldaZpX _) =>
      (flag .z t.p = true ↔ t.a = 0x00#8) ∧ flag .n t.p = t.a.getLsbD 7
    | .instr (.jsr _) | .unknown _ => t.p = s.p ∧ t.a = s.a) ∧
    (∀ p, ∃ q, stepWith c (s.setP p) = .next (t.setP q))

/-! ## The four instructions -/

/-- LDA immediate completes in every state: the operand byte is loaded, 2 bytes, 2 cycles, and all else is
kept; and a running step at the byte 0xA9 does that with the byte after it.  At every configuration
(R124). -/
def Obligations.LdaImmediateEffect : Prop :=
  (∀ (s : State) (imm8 : Byte), ∃ t, exec (.ldaImm imm8) s = .next t ∧ LoadEffect specConfig imm8 2 s t) ∧
  (∀ (c : Config) (s : State), Running s → s.mem.read s.pc = 0xA9#8 →
    ∃ t, stepWith c s = .next t ∧ LoadEffect c (s.mem.read (s.pc + 1#16)) 2 s t) ∧
  (∀ s : State, Running s → s.mem.read s.pc = 0xA9#8 →
    ∃ t, step s = .next t ∧ LoadEffect specConfig (s.mem.read (s.pc + 1#16)) 2 s t)

/-- LDA zero page completes in every state: the byte at `zext_16(zp8)` is loaded, 2 bytes, 3 cycles, and
all else is kept; and a running step at the byte `OPC_LDA_ZP` does that.  At every well-formed
configuration (R125); the byte 0xA5 is D8 (log 5). -/
def Obligations.LdaZeroPageEffect : Prop :=
  (∀ (s : State) (zp8 : Byte), ∃ t, exec (.ldaZp zp8) s = .next t ∧
    LoadEffect specConfig (s.mem.read (zp8.setWidth 16)) 3 s t) ∧
  (∀ (c : Config) (s : State), c.wf = true → Running s → s.mem.read s.pc = c.opcLdaZp →
    ∃ t, stepWith c s = .next t ∧
      LoadEffect c (s.mem.read ((s.mem.read (s.pc + 1#16)).setWidth 16)) 3 s t) ∧
  (∀ s : State, Running s → s.mem.read s.pc = 0xA5#8 →
    ∃ t, step s = .next t ∧
      LoadEffect specConfig (s.mem.read ((s.mem.read (s.pc + 1#16)).setWidth 16)) 3 s t)

/-- LDA zero page,X completes in every state: the byte at the 8-bit sum of operand and `X` is loaded, 2
bytes, 4 cycles, and all else is kept, `X` too; and a running step at the byte 0xB5 does that.  At every
well-formed configuration (R126). -/
def Obligations.LdaZeroPageXEffect : Prop :=
  (∀ (s : State) (zp8 : Byte), ∃ t, exec (.ldaZpX zp8) s = .next t ∧
    LoadEffect specConfig (s.mem.read ((zp8 + s.x).setWidth 16)) 4 s t) ∧
  (∀ (c : Config) (s : State), c.wf = true → Running s → s.mem.read s.pc = 0xB5#8 →
    ∃ t, stepWith c s = .next t ∧
      LoadEffect c (s.mem.read ((s.mem.read (s.pc + 1#16) + s.x).setWidth 16)) 4 s t) ∧
  (∀ s : State, Running s → s.mem.read s.pc = 0xB5#8 →
    ∃ t, step s = .next t ∧
      LoadEffect specConfig (s.mem.read ((s.mem.read (s.pc + 1#16) + s.x).setWidth 16)) 4 s t)

/-- JSR completes in every state: the target is the new `PC`, the address of its own last byte is stored
little-endian at `0x0100 + SP`, 6 cycles, `SP` moves by the delta, and all else is kept; and a running
step at the byte `OPC_JSR` does that with the two bytes after it as they were before the store.  At every
well-formed configuration.  The stack location is in 0x0100 to 0x01FF and the high byte one above it on
the full 16 bits, 0x0200 for `SP = 0xFF`.  The stack formula, the word, the order and the wrap are D4, D6, D13, D9
(log 6); the byte 0x20 is D8 and the unmoved `SP` is D5 (log 5). -/
def Obligations.JsrStoresReturnWord : Prop :=
  (∀ (s : State) (target : Addr), ∃ t, exec (.jsr target) s = .next t ∧ JsrEffect specConfig target s t) ∧
  (∀ (c : Config) (s : State), c.wf = true → Running s → s.mem.read s.pc = c.opcJsr →
    ∃ t, stepWith c s = .next t ∧
      JsrEffect c (wordOf (s.mem.read (s.pc + 2#16)) (s.mem.read (s.pc + 1#16))) s t) ∧
  (∀ s : State, Running s → s.mem.read s.pc = 0x20#8 →
    ∃ t, step s = .next t ∧
      JsrEffect specConfig (wordOf (s.mem.read (s.pc + 2#16)) (s.mem.read (s.pc + 1#16))) s t) ∧
  (∀ sp : Byte, (stackAddr sp).toNat = 0x0100 + sp.toNat ∧ (stackAddr sp).toNat ≤ 0x01FF ∧
    (stackAddr sp + 1#16).toNat = (stackAddr sp).toNat + 1)

/-- Two JSRs in a row store at the same two addresses, the second overwriting the first, and leave `SP`
and every other byte as they were (R143, R183).  That `SP` stays is the default delta, D5 (log 5); that the
word is the second JSR's address plus 2, and where it lies, are D6 and D4 (log 6). -/
def Obligations.SecondJsrOverwritesFirst : Prop :=
  ∀ (s t u : State) (first second : Addr), exec (.jsr first) s = .next t → exec (.jsr second) t = .next u →
    u.sp = s.sp ∧ u.mem.readWord (stackAddr s.sp) = first + 2#16 ∧
    MemoryKeptOutside [stackAddr s.sp, stackAddr s.sp + 1#16] s u

/-- A store is seen by the next fetch: after a JSR to the stack location itself, what stands at `PC` is
decoded from the word just stored (R65; the stack formula and the word are D4 and D6, log 6). -/
def Obligations.FetchSeesStoredWord : Prop :=
  ∀ s t : State, exec (.jsr (stackAddr s.sp)) s = .next t →
    decodeAt specConfig t =
      decode (loByte (returnWord s)) (hiByte (returnWord s)) (s.mem.read (stackAddr s.sp + 2#16))

/-! ## Unknown opcodes -/

/-- A running step at an unknown opcode completes: one byte, one cycle, one `Unsupported(op)`, and nothing
else.  At every configuration, and at the spec's own bytes (R88, R110, R150; going on is D18, the sink
D11, two of the excepted bytes D8; log 5, 8). -/
def Obligations.UnknownOpcodeEffect : Prop :=
  (∀ (c : Config) (s : State), Running s →
    s.mem.read s.pc ≠ 0xA9#8 → s.mem.read s.pc ≠ c.opcLdaZp → s.mem.read s.pc ≠ 0xB5#8 → s.mem.read s.pc ≠ c.opcJsr →
    ∃ t, stepWith c s = .next t ∧ UnknownEffect (s.mem.read s.pc) s t) ∧
  (∀ s : State, Running s → UnknownOpcode (s.mem.read s.pc) →
    ∃ t, step s = .next t ∧ UnknownEffect (s.mem.read s.pc) s t)

/-- A step adds at most one event, exactly when the byte at `PC` is an unknown opcode, and that byte is
what it records (R150, R156; D11, log 8). -/
def Obligations.AtMostOneEventPerStep : Prop :=
  ∀ s t : State, step s = .next t →
    (UnknownOpcode (s.mem.read s.pc) → t.diag = s.diag ++ [.unsupported (s.mem.read s.pc)]) ∧
    (¬ UnknownOpcode (s.mem.read s.pc) → t.diag = s.diag)

/-! ## The step -/

/-- A running step is `exec` of the decoded instruction and nothing more: `exec` itself moves `PC` past the
instruction's bytes and charges the whole instruction.  The same where the bytes from `PC` on are the
encoding of an instruction (R105). -/
def Obligations.StepRunsDecodedInstruction : Prop :=
  (∀ (s : State) (i : Instr), Running s → decodeAt specConfig s = .instr i → step s = exec i s) ∧
  (∀ (s : State) (i : Instr), Running s →
    (∀ k (h : k < (encode i).length), s.mem.read (s.pc + BitVec.ofNat 16 k) = (encode i)[k]) →
    step s = exec i s)

/-- A step is taken only in Running; Halted, which is `CYC <= 0`, has none (R106; that a step of the model
then answers the fault `halted` is log 2), and no other stop. -/
def Obligations.HaltedHasNoStep : Prop :=
  ∀ s : State, ((∃ t, step s = .next t) ↔ 0 < s.cyc) ∧ (step s = .fault .halted ↔ s.cyc ≤ 0) ∧ SafeOutcome (step s)

/-- A running step always completes, and never changes `X`, `Y` or a flag other than `Z` and `N`; it
changes `SP` only by the delta (R105, R112, R154).  At every configuration. -/
def Obligations.RunningStepAlwaysCompletes : Prop :=
  ∀ (c : Config) (s : State), Running s → ∃ t, stepWith c s = .next t ∧
    t.x = s.x ∧ t.y = s.y ∧ (∀ f, f ≠ .z → f ≠ .n → flag f t.p = flag f s.p) ∧
    (t.sp = s.sp ∨ t.sp = s.sp + c.jsrSpDelta)

/-- Decoding first and then running the instruction is the spec's sequential pseudocode, in which each
byte is fetched when the handler asks for it: at every configuration, well-formed or not, and every running
state, whatever bytes overlap or wrap (R101 to R105, R110, R124 to R126, R144, R145; D9, D13, log 4, 6). -/
def Obligations.StepRefinesPseudocode : Prop :=
  (∀ (c : Config) (s : State), Running s → stepWith c s = .next (pseudoStep c s)) ∧
  (∀ s : State, Running s → step s = .next (pseudoStep specConfig s))

/-- The cycle and length columns of the opcode table hold of every step: the whole charge is the table's,
between 1 and 6, whatever the operands, and a step other than JSR's moves `PC` by the table's length
modulo 65536 (R26, R81, R185).  At every configuration. -/
def Obligations.CycleAndLengthTable : Prop :=
  ∀ (c : Config) (s t : State), stepWith c s = .next t →
    t.cyc = s.cyc - (decodeAt c s).cycles ∧ 1 ≤ s.cyc - t.cyc ∧ s.cyc - t.cyc ≤ 6 ∧
    (∀ target, decodeAt c s = .instr (.jsr target) → t.pc = target) ∧
    ((∀ target, decodeAt c s ≠ .instr (.jsr target)) → t.pc = s.pc + BitVec.ofNat 16 (decodeAt c s).length)

/-- Only JSR writes memory, and only its two stack bytes (R33, R60).  At every configuration. -/
def Obligations.OnlyJsrStores : Prop :=
  ∀ (c : Config) (s t : State) (addr : Addr), stepWith c s = .next t → t.mem.read addr ≠ s.mem.read addr →
    (∃ target, decodeAt c s = .instr (.jsr target)) ∧ (addr = stackAddr s.sp ∨ addr = stackAddr s.sp + 1#16)

/-- `Charge(n)` is exact subtraction and touches nothing else, and nothing inside a step reads `CYC`: two
positive budgets give the same step and the same charge (R100). -/
def Obligations.BudgetIsNotReadInsideStep : Prop :=
  (∀ (n : Nat) (s : State), (charge n s).cyc = s.cyc - n ∧ (charge n s).setCyc s.cyc = s) ∧
  (∀ (c : Config) (s t : State) (b b' : Int), 0 < b → 0 < b' → stepWith c (s.setCyc b) = .next t →
    stepWith c (s.setCyc b') = .next (t.setCyc (b' - (b - t.cyc))))

/-- No step reads `A`, `Y` or `DIAG`, and `P` decides nothing but the next `P`: two states that agree on `X`,
`SP`, `PC`, memory and the budget step to states that agree on them again, record the same events, and
load the same byte or each keep their `A`; each keeps its `Y`; and from one `P` they come to one `P`,
whatever their `A`, `Y` and `DIAG` (R20, R22, R24, R28 to R32).  At every configuration. -/
def Obligations.InertStateIsNeverRead : Prop :=
  ∀ (c : Config) (s s' t t' : State), SameReads s s' → s.cyc = s'.cyc →
    stepWith c s = .next t → stepWith c s' = .next t' →
    SameReads t t' ∧ t.cyc = t'.cyc ∧
    (∃ events, t.diag = s.diag ++ events ∧ t'.diag = s'.diag ++ events) ∧
    (t.a = t'.a ∨ (t.a = s.a ∧ t'.a = s'.a)) ∧
    (t.y = s.y ∧ t'.y = s'.y) ∧ (s.p = s'.p → t.p = t'.p)

/-- `FetchWord` is the little-endian word at `PC`, `PC + 2` and 2 cycles, the word that straddles 0xFFFF
included (R55, R102; D9, log 6). -/
def Obligations.FetchWordIsWordRead : Prop :=
  ∀ s : State, fetchWord s = (s.mem.readWord s.pc, consume 2 s)

/-! ## The invariant -/

/-- The invariant holds right after reset: the registers' values are R36's, `DIAG` is empty (R20), and the
core Halted (R170).  Two clauses rest on the model's own choices: the least budget on `CYC` = 0 right
after reset (log 1), and the canonical memory on the model's form of it (log 7). -/
def Obligations.ResetMeetsInvariant : Prop := Inv State.reset

/-- Every step keeps the invariant, from every state that meets it: the canonical memory (the model's own
form, log 7), the flags that speak of `A` (default mode, D1, log 5), the inert bits of `P` (their places
D2, log 11), the diagnostics (two of the four known bytes are D8, log 5), the least budget. -/
def Obligations.StepKeepsInvariant : Prop :=
  ∀ s t : State, Inv s → step s = .next t → Inv t

/-! ## The loop -/

/-- `Execute(b)` is the loop of R107, whatever bounds its recursion in the model: with no positive budget
nothing but the load of `CYC` happens; with one, a step is taken and the loop goes on from the state
and the budget it left.  At every configuration, and for `step` at the spec's own. -/
def Obligations.ExecuteIsTheLoop : Prop :=
  (∀ (c : Config) (b : Int) (s : State),
    (b ≤ 0 → execute c b s = .next (s.setCyc b)) ∧
    (0 < b → ∃ t, stepWith c (s.setCyc b) = .next t ∧ execute c b s = execute c t.cyc t)) ∧
  (∀ (b : Int) (s : State), 0 < b →
    ∃ t, step (s.setCyc b) = .next t ∧ execute specConfig b s = execute specConfig t.cyc t)

/-- Overdraw: a call with a positive budget always returns, has taken at least one whole step, ends with a
budget from -5 to 0 and has spent from `b` to `b + 5` cycles (R108).  At every configuration. -/
def Obligations.ExecuteReturnsOverdrawn : Prop :=
  ∀ (c : Config) (b : Int) (s : State), 1 ≤ b →
    ∃ t u, stepWith c (s.setCyc b) = .next t ∧ execute c b s = .next u ∧ execute c t.cyc t = .next u ∧
      -5 ≤ u.cyc ∧ u.cyc ≤ 0 ∧ b ≤ b - u.cyc ∧ b - u.cyc ≤ b + 5

/-- Carrying the remainder of one call over into the next gives the run of the joint budget: a program
run in pieces executes the same instructions (R111, D23; log 14). -/
def Obligations.RemainderCarriesOver : Prop :=
  ∀ (c : Config) (b b' : Int) (s t : State), 0 ≤ b' → execute c b s = .next t →
    execute c (b + b') s = execute c (t.cyc + b') t

/-- `Execute(1)` runs exactly one step (R162, R181). -/
def Obligations.BudgetOneIsSingleStep : Prop :=
  (∀ (c : Config) (s : State), execute c 1 s = stepWith c (s.setCyc 1)) ∧
  (∀ s : State, execute specConfig 1 s = step (s.setCyc 1))

/-- In a memory of zeros each byte is the unknown opcode 0x00: a budget of `k` runs `k` steps, one cycle
and one `Unsupported(0x00)` each, through the wrap at 0xFFFF, and changes nothing else (R184).  That the
memory of zeros is the empty list is the model's form of memory (log 7). -/
def Obligations.UnloadedMemoryRuns : Prop :=
  ∀ (k : Nat) (s : State), s.mem = [] →
    execute specConfig k s = .next { s with
      pc := s.pc + BitVec.ofNat 16 k, cyc := 0, diag := s.diag ++ List.replicate k (.unsupported 0x00#8) }

/-- A hardware counter of `w` bits in two's complement is enough wherever it holds the start value and -5:
at every step it holds the budget exactly, and counts down as the integer does (R31; the unbounded
integer is D10, log 10). -/
def Obligations.HardwareBudgetCounterSuffices : Prop :=
  ∀ (w : Nat) (s t : State), 4 ≤ w → s.cyc < 2 ^ (w - 1) → step s = .next t →
    (BitVec.ofInt w t.cyc).toInt = t.cyc ∧ t.cyc < 2 ^ (w - 1) ∧
    BitVec.ofInt w t.cyc = BitVec.ofInt w s.cyc - BitVec.ofNat w (decodeAt specConfig s).cycles

/-! ## Reset and the host -/

/-- Reset after any run writes exactly its six registers to R36's values and keeps what the run left of
`CYC`, memory and `DIAG`; the state right after reset has those values, a memory that reads 0x00
everywhere, an empty `DIAG`, and is Halted.  At every configuration; `State.reset` is the one at the
defaults (`SP_RESET` = 0x00: D3, log 5). -/
def Obligations.ResetValues : Prop :=
  (∀ (c : Config) (b : Int) (s : State), ¬ Running s →
    ∃ t u, hostAct c (.execute b) s = .next t ∧ hostAct c .reset t = .next u ∧
      u.a = 0x00#8 ∧ u.x = 0x00#8 ∧ u.y = 0x00#8 ∧ u.p = 0x00#8 ∧ u.sp = c.spReset ∧ u.pc = 0xFFFC#16 ∧
      u.cyc = t.cyc ∧ u.mem = t.mem ∧ u.diag = t.diag ∧ ¬ Running u) ∧
  (∀ c : Config,
    let t := State.resetWith c
    t.a = 0x00#8 ∧ t.x = 0x00#8 ∧ t.y = 0x00#8 ∧ t.p = 0x00#8 ∧ t.sp = c.spReset ∧ t.pc = 0xFFFC#16 ∧
      (∀ a, t.mem.read a = 0x00#8) ∧ t.diag = [] ∧ ¬ Running t) ∧
  State.reset = State.resetWith specConfig

/-- The first opcode after reset is fetched from 0xFFFC itself, and no pointer is read there: an image
loaded, a reset and a call with a positive budget run first what the bytes from 0xFFFC on decode to
(R171).  At every configuration. -/
def Obligations.FirstOpcodeIsAtResetVector : Prop :=
  ∀ (c : Config) (s : State) (image : List (Addr × Byte)) (b : Int), ¬ Running s → 0 < b →
    ∃ start t, hostSession c [.loadImage image, .reset] s = .next start ∧ start.pc = 0xFFFC#16 ∧
      start.mem = s.mem.load image ∧
      hostSession c [.loadImage image, .reset, .execute b] s = execute c t.cyc t ∧
      match decodeWith c (start.mem.read 0xFFFC#16) (start.mem.read 0xFFFD#16) (start.mem.read 0xFFFE#16) with
      | .instr i => execWith c i (start.setCyc b) = t
      | .unknown op => unknownOpcode op (start.setCyc b) = t

/-- Reset and memory initialisation are two operations: a Halted host may load the image and reset in
either order with one result, initialisation makes every byte 0x00, and reset never clears memory (R172).
At every configuration. -/
def Obligations.ResetAndMemoryCompose : Prop :=
  ∀ (c : Config) (s : State) (image : List (Addr × Byte)), ¬ Running s →
    (∃ t, hostSession c [.loadImage image, .reset] s = .next t ∧
      hostSession c [.reset, .loadImage image] s = .next t ∧ t.mem = s.mem.load image) ∧
    (∃ t, hostSession c [.memInit, .reset] s = .next t ∧ hostSession c [.reset, .memInit] s = .next t ∧
      ∀ a : Addr, t.mem.read a = 0x00#8) ∧
    (∃ t, hostAct c .reset s = .next t ∧ t.mem = s.mem)

/-- While Halted the host may write each register and each byte of memory, which changes that register
or byte and nothing else, and to inspect changes nothing (R176; D15, log 9). -/
def Obligations.HostPresets : Prop :=
  ∀ (c : Config) (s : State), ¬ Running s →
    (∀ v, ∃ t, hostAct c (.presetA v) s = .next t ∧ t.a = v ∧ t.setA s.a = s) ∧
    (∀ v, ∃ t, hostAct c (.presetX v) s = .next t ∧ t.x = v ∧ t.setX s.x = s) ∧
    (∀ v, ∃ t, hostAct c (.presetY v) s = .next t ∧ t.y = v ∧ t.setY s.y = s) ∧
    (∀ v, ∃ t, hostAct c (.presetSP v) s = .next t ∧ t.sp = v ∧ t.setSP s.sp = s) ∧
    (∀ v, ∃ t, hostAct c (.presetPC v) s = .next t ∧ t.pc = v ∧ t.setPC s.pc = s) ∧
    (∀ v, ∃ t, hostAct c (.presetP v) s = .next t ∧ t.p = v ∧ t.setP s.p = s) ∧
    (∀ a v, ∃ t, hostAct c (.loadImage [(a, v)]) s = .next t ∧ t.mem.read a = v ∧
      MemoryKeptOutside [a] s t ∧ t.setMem s.mem = s) ∧
    hostAct c .inspect s = .next s

/-- The host has no move while the core is Running (R62, R174; that the model refuses it is log 9). -/
def Obligations.NoHostMoveWhileRunning : Prop :=
  ∀ (c : Config) (s : State) (op : HostOp), (∃ t, hostAct c op s = .next t) ↔ ¬ Running s

/-- Every session of host operations, from every Halted state, completes and leaves the core Halted, with
a budget that only an `Execute` call gives a value below -5, and a canonical memory canonical: no fault
and no refusal can be met from reset on (R62, R112, R154, R174).  The canonical form is the model's own
(log 7), and that the host acts on a Halted core only is D15 (log 9). -/
def Obligations.HostSessionsNeverStop : Prop :=
  ∀ (c : Config) (ops : List HostOp) (s : State), ¬ Running s →
    ∃ t, hostSession c ops s = .next t ∧ ¬ Running t ∧ (s.mem.wf = true → t.mem.wf = true) ∧
      ((∀ b, .execute b ∈ ops → 0 < b) → -5 ≤ s.cyc → -5 ≤ t.cyc)

/-! ## The host's interface to the model -/

/-- A table word placed where the next step fetches is what that step decodes, whatever state it is placed
in, the three addresses past 0xFFFF included; the step is Running and the state differs in memory and
budget only (log 3). -/
def Obligations.PlacedWordRuns : Prop :=
  ∀ (s : State) (nbits w : Nat) (i : Instr), decodeTableWord nbits w = some i →
    step (s.withFetchWord nbits w) = exec i (s.withFetchWord nbits w) ∧
    (∀ addr : Addr, addr ≠ s.pc → addr ≠ s.pc + 1#16 → addr ≠ s.pc + 2#16 →
      (s.withFetchWord nbits w).mem.read addr = s.mem.read addr) ∧
    ((s.withFetchWord nbits w).setMem s.mem).setCyc s.cyc = s
end

