-- ==== Sys2Proof/Tests/Slice0.lean ====
section
/-! SUPPORT. The model's own tests.  Expected values are the spec's: spec/30_encoding.md R87, R90 for the
words, spec/95_test_vectors.md for the steps (the vector's name is in the comment), and for each statement
of Certificates/Slice0/Obligations.lean with hypotheses a state that meets them all. -/

namespace Sys2Proof.Machine

/-! ## Well-formedness: each check refuses its ill-formed term -/

theorem test_wf_spec : specConfig.wf = true := by decide

theorem test_wf_ldaZp_is_ldaImm : Config.wf { specConfig with opcLdaZp := 0xA9#8 } = false := by decide

theorem test_wf_ldaZp_is_ldaZpX : Config.wf { specConfig with opcLdaZp := 0xB5#8 } = false := by decide

theorem test_wf_jsr_is_ldaImm : Config.wf { specConfig with opcJsr := 0xA9#8 } = false := by decide

theorem test_wf_jsr_is_ldaZpX : Config.wf { specConfig with opcJsr := 0xB5#8 } = false := by decide

theorem test_wf_jsr_is_ldaZp : Config.wf { specConfig with opcJsr := 0xA5#8 } = false := by decide

theorem test_memory_wf : Memory.wf [(0, 0x01#8), (65535, 0xFF#8)] = true := by decide

theorem test_memory_wf_unsorted : Memory.wf [(2, 0x01#8), (1, 0x01#8)] = false := by decide

theorem test_memory_wf_repeated : Memory.wf [(1, 0x01#8), (1, 0x02#8)] = false := by decide

theorem test_memory_wf_zero_entry : Memory.wf [(1, 0x00#8)] = false := by decide

theorem test_memory_wf_outside : Memory.wf [(65536, 0x01#8)] = false := by decide

/-! ## Decoding: the words of R87 and R90, written out -/

theorem test_decode_ldaImm : decode 0b10101001#8 0x84#8 0x00#8 = .instr (.ldaImm 0x84#8) := by decide

theorem test_decode_ldaZp : decode 0b10100101#8 0x80#8 0x00#8 = .instr (.ldaZp 0x80#8) := by decide

theorem test_decode_ldaZpX : decode 0b10110101#8 0x80#8 0x00#8 = .instr (.ldaZpX 0x80#8) := by decide

theorem test_decode_jsr : decode 0b00100000#8 0x34#8 0x12#8 = .instr (.jsr 0x1234#16) := by decide

theorem test_decode_unknown : decode 0xA8#8 0x84#8 0x00#8 = .unknown 0xA8#8 := by decide

theorem test_encode_jsr : encode (.jsr 0x1234#16) = [0x20#8, 0x34#8, 0x12#8] := by decide

theorem test_decodeBytes_cut_short : decodeBytes [0x20#8, 0x34#8] = none := by decide

theorem test_table_word_jsr : decodeTableWord 24 0x123420 = some (.jsr 0x1234#16) := by decide

theorem test_table_word_short : decodeTableWord 8 0xFFA9 = some (.ldaImm 0x00#8) := by decide

/-! ## Steps -/

/-- A machine at `pc` with budget `b`, the bytes `image` loaded into a fresh memory, and all else as
after reset. -/
def machineAt (pc : Addr) (b : Int) (image : List (Addr × Byte)) : State :=
  { State.reset with pc := pc, cyc := b, mem := Memory.load [] image }

/-- The state an outcome answers, the reset state where it answers none. -/
def after : Host.Outcome State Fault Refusal → State
  | .next s => s
  | .fault _ => State.reset
  | .refused _ => State.reset

/-- A, Z, N, PC, SP and the budget: the columns the vectors give that a step may change. -/
def seen (s : State) : Byte × Bool × Bool × Addr × Byte × Int :=
  (s.a, flag .z s.p, flag .n s.p, s.pc, s.sp, s.cyc)

/-- S1: LDA #$84 at the reset address, Execute(2). -/
theorem test_ldaImm_S1 :
    seen (after (step (machineAt 0xFFFC#16 2 [(0xFFFC#16, 0xA9#8), (0xFFFD#16, 0x84#8)]))) =
      (0x84#8, false, true, 0xFFFE#16, 0x00#8, 0) := by decide

/-- L7: the operand is fetched across the wrap. -/
theorem test_ldaImm_L7 :
    seen (after (step (machineAt 0xFFFF#16 2 [(0xFFFF#16, 0xA9#8), (0x0000#16, 0x7F#8)]))) =
      (0x7F#8, false, false, 0x0001#16, 0x00#8, 0) := by decide

/-- Z5: LDA $01 at 0x0000 loads its own operand byte. -/
theorem test_ldaZp_Z5 :
    seen (after (step (machineAt 0x0000#16 3 [(0x0000#16, 0xA5#8), (0x0001#16, 0x01#8)]))) =
      (0x01#8, false, false, 0x0002#16, 0x00#8, 0) := by decide

/-- Z4: an address never written reads 00; Z is set and the old N cleared. -/
theorem test_ldaZp_Z4 :
    seen (after (step { machineAt 0x8000#16 3 [(0x8000#16, 0xA5#8), (0x8001#16, 0x40#8)] with a := 0x33#8, p := 0x80#8 })) =
      (0x00#8, true, false, 0x8002#16, 0x00#8, 0) := by decide

/-- X2: the sum 0x100 wraps to 0x00 and 0x0100 is not read. -/
theorem test_ldaZpX_X2 :
    seen (after (step { machineAt 0x8000#16 4 [(0x8000#16, 0xB5#8), (0x8001#16, 0xFF#8), (0x0000#16, 0x11#8), (0x0100#16, 0xEE#8)]
      with x := 0x01#8 })) = (0x11#8, false, false, 0x8002#16, 0x00#8, 0) := by decide

/-- X7: `Y` is not the index. -/
theorem test_ldaZpX_X7 :
    seen (after (step { machineAt 0x8000#16 4 [(0x8000#16, 0xB5#8), (0x8001#16, 0x80#8), (0x0082#16, 0xC3#8), (0x0085#16, 0x3C#8)]
      with x := 0x02#8, y := 0x05#8 })) = (0xC3#8, false, true, 0x8002#16, 0x00#8, 0) := by decide

/-- J9: the operand bytes are the stack bytes; the target is the old word, then they hold 0101. -/
theorem test_jsr_J9 :
    let t := after (step (machineAt 0x00FF#16 6 [(0x00FF#16, 0x20#8), (0x0100#16, 0x34#8), (0x0101#16, 0x12#8)]))
    seen t = (0x00#8, false, false, 0x1234#16, 0x00#8, 0) ∧ t.mem.read 0x0100#16 = 0x01#8 ∧
      t.mem.read 0x0101#16 = 0x01#8 := by decide

/-- J2 and J7: the deepest overdraw, with the high byte leaving the stack page. -/
theorem test_jsr_J2_J7 :
    let t := after (step { machineAt 0x8000#16 1 [(0x8000#16, 0x20#8), (0x8001#16, 0x34#8), (0x8002#16, 0x12#8)] with sp := 0xFF#8 })
    seen t = (0x00#8, false, false, 0x1234#16, 0xFF#8, -5) ∧ t.mem.read 0x01FF#16 = 0x02#8 ∧
      t.mem.read 0x0200#16 = 0x80#8 ∧ t.mem.read 0x0100#16 = 0x00#8 := by decide

/-- J11: `JSR_SP_DELTA = 0xFE` moves `SP` after the write. -/
theorem test_jsr_J11 :
    (execWith { specConfig with jsrSpDelta := 0xFE#8 } (.jsr 0x1234#16) (machineAt 0x8000#16 6 [])).sp = 0xFE#8 := by decide

/-- L6b, "so:": under `set_only` the second load sets N and leaves Z. -/
theorem test_setOnly_L6b : setZN .setOnly 0x80#8 (setZN .setOnly 0x00#8 0x00#8) = 0x82#8 := by decide

/-- K2: an unknown opcode at 0xFFFF. -/
theorem test_unknown_K2 :
    let t := after (step { machineAt 0xFFFF#16 1 [(0xFFFF#16, 0x60#8)] with a := 0x12#8 })
    seen t = (0x12#8, false, false, 0x0000#16, 0x00#8, 0) ∧ t.diag = [.unsupported 0x60#8] := by decide

/-- L10: no step with a negative budget. -/
theorem test_halted_L10 : step (machineAt 0x8000#16 (-3) [(0x8000#16, 0xA9#8)]) = .fault .halted := rfl

/-- S2 as a session: image, reset, X preset, Execute(4). -/
theorem test_session_S2 :
    seen (after (hostSession specConfig [.memInit, .loadImage [(0xFFFC#16, 0xB5#8), (0xFFFD#16, 0x80#8), (0x0082#16, 0x00#8)],
      .reset, .presetX 0x02#8, .execute 4] State.reset)) = (0x00#8, true, false, 0xFFFE#16, 0x00#8, 0) := by decide

/-- The host's interface: a placed table word is the first instruction after reset. -/
theorem test_first_step_after_reset :
    seen (after (step (State.reset.withFetchWord 16 0x84A9))) = (0x84#8, false, true, 0xFFFE#16, 0x00#8, -1) := by decide

/-! ## Witnesses: a state for the hypotheses of each statement -/

/-- A running machine at an LDA immediate. -/
def runningLda : State := machineAt 0x8000#16 3 [(0x8000#16, 0xA9#8), (0x8001#16, 0x84#8)]

/-- A running machine at an LDA zero page. -/
def runningLdaZp : State := machineAt 0x8000#16 3 [(0x8000#16, 0xA5#8), (0x8001#16, 0x10#8)]

/-- A running machine at an LDA zero page,X. -/
def runningLdaZpX : State := machineAt 0x8000#16 3 [(0x8000#16, 0xB5#8), (0x8001#16, 0x80#8)]

/-- A running machine at a JSR. -/
def runningJsr : State := machineAt 0x8000#16 3 [(0x8000#16, 0x20#8), (0x8001#16, 0x34#8), (0x8002#16, 0x12#8)]

/-- A running machine at an unknown opcode. -/
def runningUnknown : State := machineAt 0x8000#16 1 [(0x8000#16, 0xEA#8)]

/-- DecodeEncodeRoundTrip, and every statement over well-formed configurations. -/
theorem witness_config : specConfig.wf = true ∧ Config.wf { specConfig with opcLdaZp := 0x01#8, opcJsr := 0x02#8 } = true := by
  decide

/-- EncodeDecodeRoundTrip, OpcodeAloneGivesLength and OperandAssembly: one triple per operand form, the
operand at an end of its range, and an unknown one. -/
theorem witness_decoded :
    decodeWith specConfig 0xA9#8 0xFF#8 0x00#8 = .instr (.ldaImm 0xFF#8) ∧
    decodeWith specConfig 0xA5#8 0x00#8 0xFF#8 = .instr (.ldaZp 0x00#8) ∧
    decodeWith specConfig 0xB5#8 0xFF#8 0xFF#8 = .instr (.ldaZpX 0xFF#8) ∧
    decodeWith specConfig 0x20#8 0xFF#8 0xFF#8 = .instr (.jsr 0xFFFF#16) ∧
    decodeWith specConfig 0x00#8 0xFF#8 0xFF#8 = .unknown 0x00#8 := by decide

/-- DecodingEveryByteRun: a run that is decoded, with bytes left over. -/
theorem witness_decodeBytes :
    decodeBytesWith specConfig [0xA9#8, 0x84#8, 0x20#8] = some (.instr (.ldaImm 0x84#8), [0x20#8]) := by decide

/-- CanonicalMemoryIsUnique: one canonical memory reached by two orders of writing. -/
theorem witness_canonical :
    Memory.wf [(1, 0x01#8), (2, 0x02#8)] = true ∧
    Memory.load [] [(0x0002#16, 0x02#8), (0x0001#16, 0x01#8)] = [(1, 0x01#8), (2, 0x02#8)] ∧
    Memory.load [] [(0x0001#16, 0x01#8), (0x0003#16, 0x09#8), (0x0002#16, 0x02#8), (0x0003#16, 0x00#8)] =
      [(1, 0x01#8), (2, 0x02#8)] := by decide

/-- WordStoreIsLittleEndian's last clause at the wrap: an address that is neither of the two. -/
theorem witness_other_address : (0x0001#16 : Addr) ≠ 0xFFFF#16 ∧ (0x0001#16 : Addr) ≠ 0xFFFF#16 + 1#16 := by decide

/-- LoadedImageReads, ResetAndMemoryCompose, HostPresets, HostSessionsNeverStop, FirstOpcodeIsAtResetVector:
a Halted state, and a positive budget. -/
theorem witness_halted : ¬ Running State.reset ∧ -5 ≤ State.reset.cyc ∧ State.reset.mem.wf = true ∧ (0 : Int) < 1 := by decide

/-- HostSessionsNeverStop's last clause: a session whose budgets are all positive. -/
theorem witness_session : ∀ b, HostOp.execute b ∈ [HostOp.reset, .execute 4] → 0 < b := by
  intro b h
  simp only [List.mem_cons, reduceCtorEq, HostOp.execute.injEq, List.not_mem_nil, or_false, false_or] at h
  omega

/-- LdaImmediateEffect, and the statements over running states. -/
theorem witness_runningLda : Running runningLda ∧ runningLda.mem.read runningLda.pc = 0xA9#8 := by decide

/-- LdaZeroPageEffect. -/
theorem witness_runningLdaZp : Running runningLdaZp ∧ runningLdaZp.mem.read runningLdaZp.pc = 0xA5#8 := by decide

/-- LdaZeroPageXEffect. -/
theorem witness_runningLdaZpX : Running runningLdaZpX ∧ runningLdaZpX.mem.read runningLdaZpX.pc = 0xB5#8 := by decide

/-- JsrStoresReturnWord. -/
theorem witness_runningJsr : Running runningJsr ∧ runningJsr.mem.read runningJsr.pc = 0x20#8 := by decide

/-- UnknownOpcodeEffect. -/
theorem witness_runningUnknown :
    Running runningUnknown ∧ runningUnknown.mem.read runningUnknown.pc ≠ 0xA9#8 ∧
    runningUnknown.mem.read runningUnknown.pc ≠ specConfig.opcLdaZp ∧
    runningUnknown.mem.read runningUnknown.pc ≠ 0xB5#8 ∧
    runningUnknown.mem.read runningUnknown.pc ≠ specConfig.opcJsr := by decide

/-- SecondJsrOverwritesFirst and FetchSeesStoredWord: JSR answers a next state, and a second one after it. -/
theorem witness_two_jsrs :
    ∃ t u, exec (.jsr (stackAddr runningJsr.sp)) runningJsr = .next t ∧ exec (.jsr 0x4321#16) t = .next u :=
  ⟨_, _, rfl, rfl⟩

/-- AtMostOneEventPerStep, CycleAndLengthTable, BudgetIsNotReadInsideStep, HardwareBudgetCounterSuffices:
a step that answers a next state, at a counter of the least width. -/
theorem witness_step : (∃ t, step runningLda = .next t) ∧ runningLda.cyc < 2 ^ (4 - 1) :=
  ⟨⟨_, step_of_running (by decide)⟩, by decide⟩

/-- OnlyLoadsWriteFlags: a configuration of the mode, and a step of it. -/
theorem witness_clearThenSet :
    specConfig.flagUpdateMode = .clearThenSet ∧ ∃ t, stepWith specConfig runningLda = .next t :=
  ⟨rfl, _, stepWith_of_running (by decide)⟩

/-- AtMostOneEventPerStep's two clauses. -/
theorem witness_known_and_unknown :
    UnknownOpcode (runningUnknown.mem.read runningUnknown.pc) ∧ ¬ UnknownOpcode (runningLda.mem.read runningLda.pc) := by
  unfold UnknownOpcode
  decide

/-- CycleAndLengthTable's two clauses on `PC`. -/
theorem witness_jsr_and_not :
    decodeAt specConfig runningJsr = .instr (.jsr 0x1234#16) ∧
    decodeAt specConfig runningLda = .instr (.ldaImm 0x84#8) := by decide

/-- StepRunsDecodedInstruction: the bytes from `PC` on are the encoding of an instruction. -/
theorem witness_encoded :
    ∀ k (h : k < (encode (.ldaImm 0x84#8)).length),
      runningLda.mem.read (runningLda.pc + BitVec.ofNat 16 k) = (encode (.ldaImm 0x84#8))[k] := by
  intro k h
  match k, h with
  | 0, _ => rfl
  | 1, _ => rfl

/-- OnlyJsrStores: a step that changes a byte. -/
theorem witness_store :
    ∃ t, stepWith specConfig runningJsr = .next t ∧ t.mem.read 0x0100#16 ≠ runningJsr.mem.read 0x0100#16 :=
  ⟨after (stepWith specConfig runningJsr), rfl, by decide⟩

/-- InertStateIsNeverRead: two running states that differ in every register no instruction reads. -/
theorem witness_inert :
    let s' := { runningJsr with a := 0x01#8, y := 0x02#8, p := 0xFF#8, diag := [.unsupported 0x00#8] }
    SameReads runningJsr s' ∧ runningJsr.cyc = s'.cyc ∧ Running runningJsr ∧ Running s' :=
  ⟨⟨rfl, rfl, rfl, rfl⟩, rfl, by decide, by decide⟩

/-- InertStateIsNeverRead, its clause from one `P`: two running states of one `P` that differ in `A`, `Y` and
`DIAG`. -/
theorem witness_inert_same_status :
    let s' := { runningJsr with a := 0x01#8, y := 0x02#8, diag := [.unsupported 0x00#8] }
    SameReads runningJsr s' ∧ runningJsr.cyc = s'.cyc ∧ runningJsr.p = s'.p ∧ runningJsr.a ≠ s'.a ∧
      runningJsr.y ≠ s'.y ∧ Running runningJsr ∧ Running s' :=
  ⟨⟨rfl, rfl, rfl, rfl⟩, rfl, rfl, by decide, by decide, by decide, by decide⟩

/-- StepKeepsInvariant: a running state that meets the invariant. -/
theorem witness_inv : Inv runningUnknown ∧ Running runningUnknown := by
  refine ⟨⟨by decide, by decide, by decide, ?_, ?_, by decide⟩, by decide⟩
  · intro f _ _
    cases f <;> rfl
  · intro op h
    cases h

/-- ExecuteIsTheLoop, ExecuteReturnsOverdrawn and RemainderCarriesOver: budgets on either side of 0, and
a call that returns. -/
theorem witness_budgets : (0 : Int) ≤ 0 ∧ (0 : Int) < 1 ∧ (1 : Int) ≤ 1 ∧ ∃ t, execute specConfig 0 runningLda = .next t :=
  ⟨by decide, by decide, by decide, _, rfl⟩

/-- UnloadedMemoryRuns: a memory of zeros. -/
theorem witness_unloaded : State.reset.mem = [] := rfl

/-- PlacedWordRuns: a table word that decodes, and an address outside the three it is placed at. -/
theorem witness_placed :
    decodeTableWord 24 0x123420 = some (.jsr 0x1234#16) ∧ (0x0002#16 : Addr) ≠ State.reset.pc ∧
    (0x0002#16 : Addr) ≠ State.reset.pc + 1#16 ∧ (0x0002#16 : Addr) ≠ State.reset.pc + 2#16 := by decide

end Sys2Proof.Machine
end

/-! ## The flags a load leaves, and what a step does with `P` (spec/10_state.md R28, R29) -/

namespace Sys2Proof.Machine

/-! ### The flag update -/

@[simp] theorem flag_z_setZN_clearThenSet (v p : Byte) :
    flag .z (setZN .clearThenSet v p) = decide (v = 0x00#8) := by
  simp [setZN]

@[simp] theorem flag_n_setZN_clearThenSet (v p : Byte) :
    flag .n (setZN .clearThenSet v p) = v.getLsbD 7 := by
  simp [setZN]

/-- `Z` says that `A` is zero, and `N` is bit 7 of `A`: what R28 and R29 ask of the state after a load. -/
def FlagsDescribeA (t : State) : Prop :=
  (flag .z t.p = true ↔ t.a = 0x00#8) ∧ flag .n t.p = t.a.getLsbD 7

/-- The common end of the three loads (R123 to R126). -/
theorem loadA_flagsDescribeA {c : Config} (h : c.flagUpdateMode = .clearThenSet) (v : Byte) (s : State) :
    FlagsDescribeA (loadA c v s) := by
  simp [FlagsDescribeA, loadA_eq, h]

/-! ### A step by what stands at `PC` -/

theorem stepWith_eq_next_iff {c : Config} {s t : State} :
    stepWith c s = .next t ↔ Running s ∧ nextWith c s = t := by
  by_cases hr : Running s
  · simp [stepWith_of_running hr, hr]
  · simp [stepWith_of_halted hr, hr]

theorem nextWith_of_instr {c : Config} {s : State} {i : Instr} (h : decodeAt c s = .instr i) :
    nextWith c s = execWith c i s := by
  simp only [nextWith, h]

theorem nextWith_of_unknown {c : Config} {s : State} {op : Byte} (h : decodeAt c s = .unknown op) :
    nextWith c s = unknownOpcode op s := by
  simp only [nextWith, h]

/-! ### No step reads `P` -/

@[simp] theorem decodeAt_setP (c : Config) (s : State) (p : Byte) : decodeAt c (s.setP p) = decodeAt c s := rfl

/-- With another `P` before, an instruction leaves the same state but for `P`: a load sets `P` from the
one before, JSR keeps it. -/
theorem execWith_setP (c : Config) (i : Instr) (s : State) (p : Byte) :
    ∃ q, execWith c i (s.setP p) = (execWith c i s).setP q := by
  cases i with
  | ldaImm imm8 => exact ⟨setZN c.flagUpdateMode imm8 p, rfl⟩
  | ldaZp zp8 => exact ⟨setZN c.flagUpdateMode (s.mem.read (eaZp zp8)) p, rfl⟩
  | ldaZpX zp8 => exact ⟨setZN c.flagUpdateMode (s.mem.read (eaZpX zp8 s.x)) p, rfl⟩
  | jsr target => exact ⟨p, rfl⟩

theorem unknownOpcode_setP (op : Byte) (s : State) (p : Byte) :
    unknownOpcode op (s.setP p) = (unknownOpcode op s).setP p := rfl

theorem nextWith_setP (c : Config) (s : State) (p : Byte) :
    ∃ q, nextWith c (s.setP p) = (nextWith c s).setP q := by
  cases hd : decodeAt c s with
  | instr i =>
    rw [nextWith_of_instr hd, nextWith_of_instr ((decodeAt_setP c s p).trans hd)]
    exact execWith_setP c i s p
  | unknown op =>
    rw [nextWith_of_unknown hd, nextWith_of_unknown ((decodeAt_setP c s p).trans hd)]
    exact ⟨p, unknownOpcode_setP op s p⟩

theorem stepWith_setP {c : Config} {s t : State} (h : stepWith c s = .next t) (p : Byte) :
    ∃ q, stepWith c (s.setP p) = .next (t.setP q) := by
  obtain ⟨hrun, rfl⟩ := stepWith_eq_next_iff.mp h
  obtain ⟨q, hq⟩ := nextWith_setP c s p
  exact ⟨q, stepWith_eq_next_iff.mpr ⟨hrun, hq⟩⟩

/-! ### The statement -/

/-- Settles O12: the step is the one of what stands at `PC`; each load ends in `loadA`, JSR and an unknown
opcode keep `P` and `A`, and no step reads `P`. -/
theorem onlyLoadsWriteFlags : Obligations.OnlyLoadsWriteFlags := by
  unfold Obligations.OnlyLoadsWriteFlags
  intro c s t hmode hstep
  refine ⟨?_, stepWith_setP hstep⟩
  obtain ⟨-, rfl⟩ := stepWith_eq_next_iff.mp hstep
  cases hd : decodeAt c s with
  | unknown op =>
    rw [nextWith_of_unknown hd, unknownOpcode_eq]
    exact ⟨rfl, rfl⟩
  | instr i =>
    rw [nextWith_of_instr hd]
    cases i with
    | ldaImm imm8 => exact loadA_flagsDescribeA hmode _ _
    | ldaZp zp8 => exact loadA_flagsDescribeA hmode _ _
    | ldaZpX zp8 => exact loadA_flagsDescribeA hmode _ _
    | jsr target =>
      rw [execWith_jsr]
      exact ⟨rfl, rfl⟩

end Sys2Proof.Machine

/-! ## What the opcode byte fixes, and what the operand bytes become (spec/30_encoding.md R81, R86) -/

namespace Sys2Proof

/-! ### The opcode byte alone chooses the form -/

/-- The opcode byte chooses the form before any operand byte is looked at; the operand bytes only fill it. -/
theorem decodeWith_form (c : Config) (b0 : Byte) :
    (∀ b1 b2, decodeWith c b0 b1 b2 = .instr (.ldaImm b1)) ∨
    (∀ b1 b2, decodeWith c b0 b1 b2 = .instr (.ldaZp b1)) ∨
    (∀ b1 b2, decodeWith c b0 b1 b2 = .instr (.ldaZpX b1)) ∨
    (∀ b1 b2, decodeWith c b0 b1 b2 = .instr (.jsr (wordOf b2 b1))) ∨
    (∀ b1 b2, decodeWith c b0 b1 b2 = .unknown b0) := by
  unfold decodeWith
  by_cases hImm : b0 = 0xA9#8
  · exact .inl fun _ _ => if_pos hImm
  simp only [if_neg hImm]
  by_cases hZp : b0 = c.opcLdaZp
  · exact .inr (.inl fun _ _ => if_pos hZp)
  simp only [if_neg hZp]
  by_cases hZpX : b0 = 0xB5#8
  · exact .inr (.inr (.inl fun _ _ => if_pos hZpX))
  simp only [if_neg hZpX]
  by_cases hJsr : b0 = c.opcJsr
  · exact .inr (.inr (.inr (.inl fun _ _ => if_pos hJsr)))
  · exact .inr (.inr (.inr (.inr fun _ _ => if_neg hJsr)))

/-- What is decoded has the length its opcode byte alone gives (R81). -/
theorem length_decodeWith (c : Config) (b0 b1 b2 : Byte) : (decodeWith c b0 b1 b2).length = lengthWith c b0 := by
  unfold lengthWith
  rcases decodeWith_form c b0 with h | h | h | h | h <;> rw [h, h] <;> rfl

/-- Bytes past the length of what is decoded play no part (R81). -/
theorem decodeWith_congr {c : Config} {b0 b1 b2 b1' b2' : Byte} (h1 : 2 ≤ lengthWith c b0 → b1' = b1)
    (h2 : 3 ≤ lengthWith c b0 → b2' = b2) : decodeWith c b0 b1' b2' = decodeWith c b0 b1 b2 := by
  rw [← length_decodeWith c b0 b1 b2] at h1 h2
  rcases decodeWith_form c b0 with h | h | h | h | h <;> rw [h] at h1 h2 <;> rw [h, h]
  · rw [h1 le_rfl]
  · rw [h1 le_rfl]
  · rw [h1 le_rfl]
  · rw [h1 (Nat.le_succ 2), h2 le_rfl]

theorem eq_of_decodeWith_unknown {c : Config} {b0 b1 b2 op : Byte} (h : decodeWith c b0 b1 b2 = .unknown op) :
    op = b0 := by
  rcases decodeWith_form c b0 with hd | hd | hd | hd | hd <;> rw [hd] at h <;> cases h
  rfl

/-- Settles O5: the form, and with it the length, is chosen by the opcode byte alone. -/
theorem opcodeAloneGivesLength : Obligations.OpcodeAloneGivesLength := by
  unfold Obligations.OpcodeAloneGivesLength
  intro c b0 b1 b2
  have hlen := length_decodeWith c b0 b1 b2
  refine ⟨hlen, fun i h => ?_, fun op h => ⟨eq_of_decodeWith_unknown h, ?_⟩, fun _ _ => decodeWith_congr⟩
  · rw [← hlen, h]
    cases i <;> rfl
  · rw [← hlen, h]
    rfl

/-! ### The operand -/

/-- A decoded instruction has the byte after the opcode as its operand, or, for JSR, the word of the two
bytes after it (R82 to R84). -/
theorem operand_of_decodeWith_instr {c : Config} {b0 b1 b2 : Byte} {i : Instr} (h : decodeWith c b0 b1 b2 = .instr i) :
    i = .ldaImm b1 ∨ i = .ldaZp b1 ∨ i = .ldaZpX b1 ∨ i = .jsr (wordOf b2 b1) := by
  rcases decodeWith_form c b0 with hd | hd | hd | hd | hd <;> rw [hd] at h <;> cases h
  · exact .inl rfl
  · exact .inr (.inl rfl)
  · exact .inr (.inr (.inl rfl))
  · exact .inr (.inr (.inr rfl))

/-- `{hi, lo} = hi * 256 + lo` in numbers (R8). -/
theorem toNat_wordOf (hi lo : Byte) : (wordOf hi lo).toNat = hi.toNat * 256 + lo.toNat := by
  have hhi : hi.toNat * 256 < 65536 := by omega
  have hlo : lo.toNat < 65536 := by omega
  calc (wordOf hi lo).toNat = hi.toNat <<< 8 ||| lo.toNat := by
        simp [wordOf, Nat.shiftLeft_eq, Nat.mod_eq_of_lt hhi, Nat.mod_eq_of_lt hlo]
    _ = hi.toNat <<< 8 + lo.toNat := (Nat.shiftLeft_add_eq_or_of_lt lo.isLt _).symm
    _ = hi.toNat * 256 + lo.toNat := by rw [Nat.shiftLeft_eq]

end Sys2Proof

namespace Sys2Proof.Machine

/-- The zero-page address is the operand, zero-extended (R86, R121). -/
theorem toNat_eaZp (zp8 : Byte) : (eaZp zp8).toNat = zp8.toNat :=
  BitVec.toNat_setWidth_of_le (by decide)

/-- The indexed address is the 8-bit sum, zero-extended (R86, R122). -/
theorem toNat_eaZpX (zp8 x : Byte) : (eaZpX zp8 x).toNat = (zp8.toNat + x.toNat) % 256 := by
  calc (eaZpX zp8 x).toNat = (zp8 + x).toNat := toNat_eaZp (zp8 + x)
    _ = (zp8.toNat + x.toNat) % 256 := BitVec.toNat_add zp8 x

/-- Settles O7: the operand is what the bytes after the opcode say, and each instruction uses it as it is. -/
theorem operandAssembly : Obligations.OperandAssembly := by
  unfold Obligations.OperandAssembly
  refine ⟨toNat_eaZp, toNat_eaZpX, fun c b0 b1 b2 imm8 h => ?_, fun c b0 b1 b2 zp8 h => ?_,
    fun c b0 lo8 hi8 target h => ?_, fun imm8 zp8 target s => ?_⟩
  · simpa using operand_of_decodeWith_instr h
  · rcases h with h | h <;> simpa using operand_of_decodeWith_instr h
  · have htarget : target = wordOf hi8 lo8 := by simpa using operand_of_decodeWith_instr h
    rw [htarget, toNat_wordOf]
  · simp only [exec_eq_execWith, execWith_ldaImm, execWith_ldaZp, execWith_ldaZpX, execWith_jsr]
    exact ⟨_, _, _, _, rfl, rfl, rfl, rfl, rfl, rfl, rfl, rfl⟩

end Sys2Proof.Machine

/-! ## The budget and the loop (spec/40_execute_loop.md R100, R107, R108) -/

namespace Sys2Proof.Machine

/-! ### No step reads `CYC` -/

@[simp] theorem decodeAt_setCyc (c : Config) (s : State) (b : Int) : decodeAt c (s.setCyc b) = decodeAt c s := rfl

/-- An instruction's charge is the table's whatever the budget before it, which decides nothing else it leaves. -/
theorem execWith_setCyc (c : Config) (i : Instr) (s : State) (b : Int) :
    execWith c i (s.setCyc b) = (execWith c i s).setCyc (b - (Decoded.instr i).cycles) := by
  cases i with
  | ldaImm imm8 => rw [execWith_ldaImm, execWith_ldaImm]; rfl
  | ldaZp zp8 => rw [execWith_ldaZp, execWith_ldaZp]; rfl
  | ldaZpX zp8 => rw [execWith_ldaZpX, execWith_ldaZpX]; rfl
  | jsr target => rw [execWith_jsr, execWith_jsr]; rfl

theorem unknownOpcode_setCyc (op : Byte) (s : State) (b : Int) :
    unknownOpcode op (s.setCyc b) = (unknownOpcode op s).setCyc (b - (Decoded.unknown op).cycles) := rfl

/-- The state a step leaves depends on the budget before it in `CYC` only, by exact subtraction (R100). -/
theorem nextWith_setCyc (c : Config) (s : State) (b : Int) :
    nextWith c (s.setCyc b) = (nextWith c s).setCyc (b - (decodeAt c s).cycles) := by
  cases hd : decodeAt c s with
  | instr i =>
    rw [nextWith_of_instr hd, nextWith_of_instr ((decodeAt_setCyc c s b).trans hd)]
    exact execWith_setCyc c i s b
  | unknown op =>
    rw [nextWith_of_unknown hd, nextWith_of_unknown ((decodeAt_setCyc c s b).trans hd)]
    exact unknownOpcode_setCyc op s b

/-- The whole charge of a step is the table's (R185). -/
theorem cyc_nextWith (c : Config) (s : State) : (nextWith c s).cyc = s.cyc - (decodeAt c s).cycles :=
  congrArg State.cyc (nextWith_setCyc c s s.cyc)

/-- Settles O27: a step's state is the same at every positive budget, but for the budget itself. -/
theorem budgetIsNotReadInsideStep : Obligations.BudgetIsNotReadInsideStep := by
  unfold Obligations.BudgetIsNotReadInsideStep
  refine ⟨fun n s => ⟨rfl, rfl⟩, fun c s t b b' _ hb' hstep => ?_⟩
  obtain ⟨-, rfl⟩ := stepWith_eq_next_iff.mp hstep
  have hcharge : b - (nextWith c (s.setCyc b)).cyc = (decodeAt c s).cycles := by
    rw [cyc_nextWith, decodeAt_setCyc, State.setCyc_cyc, sub_sub_cancel]
  refine stepWith_eq_next_iff.mpr ⟨hb', ?_⟩
  rw [hcharge, nextWith_setCyc, nextWith_setCyc]
  rfl

/-! ### The loop does not feel the bound on its recursion -/

theorem cycles_bounds (d : Decoded) : 1 ≤ d.cycles ∧ d.cycles ≤ 6 := by
  cases d with
  | instr i => cases i <;> simp [Decoded.cycles]
  | unknown op => simp [Decoded.cycles]

/-- A step charges at least 1 cycle and at most 6 (R108, R109). -/
theorem cyc_nextWith_bounds (c : Config) (s : State) :
    s.cyc - 6 ≤ (nextWith c s).cyc ∧ (nextWith c s).cyc ≤ s.cyc - 1 := by
  have hcycles := cycles_bounds (decodeAt c s)
  rw [cyc_nextWith]
  omega

/-- Any two bounds that cover the budget give the same run, because every step charges at least 1 cycle (R109). -/
theorem runLoop_fuel_irrel {c : Config} {s : State} {fuel fuel' : Nat} (h : s.cyc ≤ fuel) (h' : s.cyc ≤ fuel') :
    runLoop (stepWith c) fuel s = runLoop (stepWith c) fuel' s := by
  by_cases hr : Running s
  · have hcharged := (cyc_nextWith_bounds c s).2
    have hpos : 0 < s.cyc := hr
    cases fuel with
    | zero => omega
    | succ n =>
      cases fuel' with
      | zero => omega
      | succ n' =>
        rw [runLoop_of_running hr (stepWith_of_running hr), runLoop_of_running hr (stepWith_of_running hr)]
        exact runLoop_fuel_irrel (by omega) (by omega)
  · rw [runLoop_of_halted hr, runLoop_of_halted hr]
termination_by fuel

/-! ### The recursion equations of `Execute` -/

theorem execute_of_nonpos {b : Int} (h : b ≤ 0) (c : Config) (s : State) : execute c b s = .next (s.setCyc b) :=
  runLoop_of_halted (not_lt.mpr h) _

/-- With a budget, `Execute` takes one step and goes on from the state and the budget it left (R107). -/
theorem execute_of_pos {b : Int} (h : 0 < b) (c : Config) (s : State) :
    execute c b s = execute c (nextWith c (s.setCyc b)).cyc (nextWith c (s.setCyc b)) := by
  have hr : Running (s.setCyc b) := h
  have hcharged : (nextWith c (s.setCyc b)).cyc ≤ b - 1 := (cyc_nextWith_bounds c (s.setCyc b)).2
  obtain ⟨n, hn⟩ : ∃ n, b.toNat = n + 1 := Nat.exists_eq_succ_of_ne_zero (by omega)
  calc execute c b s = runLoop (stepWith c) (n + 1) (s.setCyc b) := by rw [execute, hn]
    _ = runLoop (stepWith c) n (nextWith c (s.setCyc b)) := runLoop_of_running hr (stepWith_of_running hr) n
    _ = execute c (nextWith c (s.setCyc b)).cyc (nextWith c (s.setCyc b)) :=
      runLoop_fuel_irrel (by omega) (Int.self_le_toNat _)

/-- Settles O32, by the two recursion equations of `execute`. -/
theorem executeIsTheLoop : Obligations.ExecuteIsTheLoop := by
  unfold Obligations.ExecuteIsTheLoop
  refine ⟨fun c b s => ⟨fun hb => execute_of_nonpos hb c s, fun hb => ?_⟩, fun b s hb => ?_⟩
  · exact ⟨_, stepWith_of_running hb, execute_of_pos hb c s⟩
  · exact ⟨_, step_of_running hb, execute_of_pos hb specConfig s⟩

/-! ### Overdraw -/

/-- From a budget the loop can itself end with, `Execute` returns and ends so again: a step is taken only
with at least 1 cycle left, and charges at most 6 (R108). -/
theorem execute_returns {b : Int} (h : -5 ≤ b) (c : Config) (s : State) :
    ∃ u, execute c b s = .next u ∧ -5 ≤ u.cyc ∧ u.cyc ≤ 0 := by
  by_cases hb : 0 < b
  · have hbounds : b - 6 ≤ (nextWith c (s.setCyc b)).cyc ∧ (nextWith c (s.setCyc b)).cyc ≤ b - 1 :=
      cyc_nextWith_bounds c (s.setCyc b)
    rw [execute_of_pos hb]
    exact execute_returns (by omega) c _
  · exact ⟨s.setCyc b, execute_of_nonpos (not_lt.mp hb) c s, h, not_lt.mp hb⟩
termination_by b.toNat

/-- Settles O33: the first step, then `execute_returns`. -/
theorem executeReturnsOverdrawn : Obligations.ExecuteReturnsOverdrawn := by
  unfold Obligations.ExecuteReturnsOverdrawn
  intro c b s hb
  have hpos : 0 < b := hb
  obtain ⟨u, hu, hlow, hhigh⟩ := execute_returns (by omega : -5 ≤ b) c s
  exact ⟨_, u, stepWith_of_running hpos, hu, execute_of_pos hpos c s ▸ hu, hlow, hhigh, by omega, by omega⟩

end Sys2Proof.Machine

/-! ## What LDA immediate and LDA zero page,X do, and what they leave alone (spec/41_load.md R123, R124, R126) -/

namespace Sys2Proof.Machine

/-! ### The flag update, in the legacy mode and on the six other flags -/

/-- The legacy update only ever sets a flag: `Z` for the value 0, `N` for a value with bit 7 set (R123). -/
theorem flag_setZN_setOnly (f : Flag) (v p : Byte) :
    flag f (setZN .setOnly v p) = (decide (f = .z ∧ v = 0x00#8 ∨ f = .n ∧ v.getLsbD 7 = true) || flag f p) := by
  unfold setZN
  by_cases hz : v = 0x00#8
  · simp [hz, Bool.if_true_left]
  · cases hn : v.getLsbD 7 <;> simp [hz, Bool.if_true_left]

theorem flag_setZN_of_ne {f : Flag} (hz : f ≠ .z) (hn : f ≠ .n) (mode : FlagUpdateMode) (v p : Byte) :
    flag f (setZN mode v p) = flag f p := by
  cases mode with
  | clearThenSet => simp [setZN, hz, hn]
  | setOnly => simp [flag_setZN_setOnly, hz, hn]

/-! ### A load of 2 bytes -/

/-- The state a load of `v` in 2 bytes and `cycles` cycles leaves: `A`, `P`, `PC` and `CYC` written, and
nothing else. -/
def loaded (c : Config) (v : Byte) (cycles : Nat) (s : State) : State :=
  { s with a := v, p := setZN c.flagUpdateMode v s.p, pc := s.pc + 2#16, cyc := s.cyc - cycles }

theorem loaded_effect (c : Config) (v : Byte) (cycles : Nat) (s : State) :
    LoadEffect c v cycles s (loaded c v cycles s) where
  accumulator := rfl
  flagsClear hmode := by simp [loaded, hmode]
  flagsSetOnly hmode := by simp [loaded, hmode, flag_setZN_setOnly]
  otherFlags _ hz hn := flag_setZN_of_ne hz hn c.flagUpdateMode v s.p
  counter := rfl
  budget := rfl
  indexX := rfl
  indexY := rfl
  stack := rfl
  memory _ _ := rfl
  diagnostics := rfl

theorem execWith_ldaImm_effect (c : Config) (imm8 : Byte) (s : State) :
    LoadEffect c imm8 2 s (execWith c (.ldaImm imm8) s) :=
  (execWith_ldaImm c imm8 s).symm ▸ loaded_effect c imm8 2 s

theorem execWith_ldaZpX_effect (c : Config) (zp8 : Byte) (s : State) :
    LoadEffect c (s.mem.read ((zp8 + s.x).setWidth 16)) 4 s (execWith c (.ldaZpX zp8) s) :=
  (execWith_ldaZpX c zp8 s).symm ▸ loaded_effect c (s.mem.read (eaZpX zp8 s.x)) 4 s

/-! ### The step at each of the two opcode bytes -/

theorem stepWith_of_instr {c : Config} {s : State} {i : Instr} (hr : Running s) (h : decodeAt c s = .instr i) :
    stepWith c s = .next (execWith c i s) :=
  stepWith_eq_next_iff.mpr ⟨hr, nextWith_of_instr h⟩

theorem decodeAt_ldaImm (c : Config) {s : State} (h : s.mem.read s.pc = 0xA9#8) :
    decodeAt c s = .instr (.ldaImm (s.mem.read (s.pc + 1#16))) := by
  rw [decodeAt, h, decodeWith_ldaImm]

theorem decodeAt_ldaZpX {c : Config} (hwf : c.wf = true) {s : State} (h : s.mem.read s.pc = 0xB5#8) :
    decodeAt c s = .instr (.ldaZpX (s.mem.read (s.pc + 1#16))) := by
  rw [decodeAt, h, decodeWith_ldaZpX hwf]

theorem stepWith_ldaImm {c : Config} {s : State} (hr : Running s) (h : s.mem.read s.pc = 0xA9#8) :
    ∃ t, stepWith c s = .next t ∧ LoadEffect c (s.mem.read (s.pc + 1#16)) 2 s t :=
  ⟨_, stepWith_of_instr hr (decodeAt_ldaImm c h), execWith_ldaImm_effect c _ s⟩

theorem stepWith_ldaZpX {c : Config} (hwf : c.wf = true) {s : State} (hr : Running s) (h : s.mem.read s.pc = 0xB5#8) :
    ∃ t, stepWith c s = .next t ∧
      LoadEffect c (s.mem.read ((s.mem.read (s.pc + 1#16) + s.x).setWidth 16)) 4 s t :=
  ⟨_, stepWith_of_instr hr (decodeAt_ldaZpX hwf h), execWith_ldaZpX_effect c _ s⟩

/-! ### The statements -/

/-- Settles O13: the instruction leaves a loaded state, and a step at 0xA9 runs the instruction. -/
theorem ldaImmediateEffect : Obligations.LdaImmediateEffect := by
  unfold Obligations.LdaImmediateEffect
  refine ⟨fun s imm8 => ?_, fun c s hr h => stepWith_ldaImm hr h, fun s hr h => ?_⟩
  · exact ⟨_, exec_eq_execWith _ s, execWith_ldaImm_effect specConfig imm8 s⟩
  · rw [step_eq_stepWith]
    exact stepWith_ldaImm hr h

/-- Settles O15: the instruction leaves a loaded state, and a step at 0xB5 runs the instruction, because a
well-formed configuration does not give that byte to LDA zero page. -/
theorem ldaZeroPageXEffect : Obligations.LdaZeroPageXEffect := by
  unfold Obligations.LdaZeroPageXEffect
  refine ⟨fun s zp8 => ?_, fun c s hwf hr h => stepWith_ldaZpX hwf hr h, fun s hr h => ?_⟩
  · exact ⟨_, exec_eq_execWith _ s, execWith_ldaZpX_effect specConfig zp8 s⟩
  · rw [step_eq_stepWith]
    exact stepWith_ldaZpX specConfig_wf hr h

end Sys2Proof.Machine

/-! ## Reset, the memory operations, and the run after them (spec/70_reset_and_hazards.md R171, R172) -/

namespace Sys2Proof.Machine

/-! ### Sessions -/

theorem hostSession_cons {c : Config} {op : HostOp} {s t : State} (h : hostAct c op s = .next t) (rest : List HostOp) :
    hostSession c (op :: rest) s = hostSession c rest t := by
  simp only [hostSession, h]

/-- A session that completes hands its last state to whatever the host does next. -/
theorem hostSession_append {c : Config} {ops : List HostOp} {s t : State} (h : hostSession c ops s = .next t)
    (rest : List HostOp) : hostSession c (ops ++ rest) s = hostSession c rest t := by
  induction ops generalizing s with
  | nil =>
    obtain rfl : s = t := by injection h
    rfl
  | cons op ops ih =>
    cases hop : hostAct c op s with
    | next u =>
      rw [hostSession_cons hop] at h
      rw [List.cons_append, hostSession_cons hop, ih h]
    | fault r => simp [hostSession, hop] at h
    | refused r => simp [hostSession, hop] at h

@[simp] theorem hostSession_singleton (c : Config) (op : HostOp) (s : State) : hostSession c [op] s = hostAct c op s := by
  unfold hostSession
  cases hostAct c op s <;> rfl

/-! ### The operations of a Halted host -/

section Halted

variable {s : State} (h : ¬ Running s) (c : Config)
include h

theorem hostAct_memInit : hostAct c .memInit s = .next (s.setMem []) := if_neg h

theorem hostAct_loadImage (image : List (Addr × Byte)) :
    hostAct c (.loadImage image) s = .next (s.setMem (s.mem.load image)) := if_neg h

theorem hostAct_reset : hostAct c .reset s = .next (resetRegisters c s) := if_neg h

theorem hostAct_execute (b : Int) : hostAct c (.execute b) s = execute c b s := if_neg h

end Halted

/-! ### Reset beside a memory operation -/

@[simp] theorem resetRegisters_pc (c : Config) (s : State) : (resetRegisters c s).pc = 0xFFFC#16 := rfl
@[simp] theorem resetRegisters_mem (c : Config) (s : State) : (resetRegisters c s).mem = s.mem := rfl
@[simp] theorem resetRegisters_cyc (c : Config) (s : State) : (resetRegisters c s).cyc = s.cyc := rfl

/-- Reset writes registers only, so replacing the memory and resetting commute. -/
theorem resetRegisters_setMem (c : Config) (s : State) (m : Memory) :
    resetRegisters c (s.setMem m) = (resetRegisters c s).setMem m := rfl

/-- An operation that replaces the memory by `m`, whether the registers were reset before or not, gives
one state before a reset and after it. -/
theorem hostSession_reset_either_order {c : Config} {op : HostOp} {s : State} {m : Memory} (h : ¬ Running s)
    (hop : hostAct c op s = .next (s.setMem m))
    (hop' : hostAct c op (resetRegisters c s) = .next ((resetRegisters c s).setMem m)) :
    hostSession c [op, .reset] s = .next ((resetRegisters c s).setMem m) ∧
    hostSession c [.reset, op] s = .next ((resetRegisters c s).setMem m) := by
  have hmem : ¬ Running (s.setMem m) := by simpa using h
  constructor
  · rw [hostSession_cons hop, hostSession_singleton, hostAct_reset hmem, resetRegisters_setMem]
  · rw [hostSession_cons (hostAct_reset h c), hostSession_singleton, hop']

theorem loadImage_reset_either_order {s : State} (h : ¬ Running s) (c : Config) (image : List (Addr × Byte)) :
    hostSession c [.loadImage image, .reset] s = .next ((resetRegisters c s).setMem (s.mem.load image)) ∧
    hostSession c [.reset, .loadImage image] s = .next ((resetRegisters c s).setMem (s.mem.load image)) := by
  have hreset : ¬ Running (resetRegisters c s) := by simpa using h
  exact hostSession_reset_either_order h (hostAct_loadImage h c image) (hostAct_loadImage hreset c image)

theorem memInit_reset_either_order {s : State} (h : ¬ Running s) (c : Config) :
    hostSession c [.memInit, .reset] s = .next ((resetRegisters c s).setMem []) ∧
    hostSession c [.reset, .memInit] s = .next ((resetRegisters c s).setMem []) := by
  have hreset : ¬ Running (resetRegisters c s) := by simpa using h
  exact hostSession_reset_either_order h (hostAct_memInit h c) (hostAct_memInit hreset c)

/-- Settles O40: reset writes the six registers and the other operation the memory. -/
theorem resetAndMemoryCompose : Obligations.ResetAndMemoryCompose := by
  unfold Obligations.ResetAndMemoryCompose
  intro c s image h
  refine ⟨?_, ?_, resetRegisters c s, hostAct_reset h c, resetRegisters_mem c s⟩
  · obtain ⟨hfirst, hlast⟩ := loadImage_reset_either_order h c image
    exact ⟨_, hfirst, hlast, State.setMem_mem _ _⟩
  · obtain ⟨hfirst, hlast⟩ := memInit_reset_either_order h c
    exact ⟨_, hfirst, hlast, Memory.read_nil⟩

/-! ### The first step after reset -/

/-- Settles O39: the session stops at a state whose `PC` is 0xFFFC, and a positive budget takes from it
the step of what stands there. -/
theorem firstOpcodeIsAtResetVector : Obligations.FirstOpcodeIsAtResetVector := by
  unfold Obligations.FirstOpcodeIsAtResetVector
  intro c s image b h hb
  obtain ⟨hboot, -⟩ := loadImage_reset_either_order h c image
  generalize hstart : (resetRegisters c s).setMem (s.mem.load image) = start at hboot
  have hpc : start.pc = 0xFFFC#16 := by simp [← hstart]
  have hmem : start.mem = s.mem.load image := by simp [← hstart]
  have hhalted : ¬ Running start := by simpa [← hstart] using h
  refine ⟨start, nextWith c (start.setCyc b), hboot, hpc, hmem, ?_, ?_⟩
  · calc hostSession c [.loadImage image, .reset, .execute b] s
        = hostSession c [.execute b] start := hostSession_append hboot [.execute b]
      _ = execute c b start := by rw [hostSession_singleton, hostAct_execute hhalted]
      _ = execute c (nextWith c (start.setCyc b)).cyc (nextWith c (start.setCyc b)) := execute_of_pos hb c start
  · have hdecode : decodeAt c (start.setCyc b) =
        decodeWith c (start.mem.read 0xFFFC#16) (start.mem.read 0xFFFD#16) (start.mem.read 0xFFFE#16) := by
      rw [decodeAt_setCyc, decodeAt, hpc]
      rfl
    rw [← hdecode]
    cases hd : decodeAt c (start.setCyc b) with
    | instr i => exact (nextWith_of_instr hd).symm
    | unknown op => exact (nextWith_of_unknown hd).symm

end Sys2Proof.Machine

/-! ## Encoding and decoding a run of bytes, and the opcode map (spec/30_encoding.md R81 to R91) -/

namespace Sys2Proof

/-! ### A run of bytes -/

/-- A run of bytes gives what its first bytes stand for, if the run holds the whole of it, and the bytes
after it (R80, R81). -/
theorem decodeBytesWith_eq_some_iff {c : Config} {b0 : Byte} {more rest : List Byte} {d : Decoded} :
    decodeBytesWith c (b0 :: more) = some (d, rest) ↔
      decodeWith c b0 (more.getD 0 0) (more.getD 1 0) = d ∧ d.length ≤ more.length + 1 ∧
        more.drop (d.length - 1) = rest := by
  have hlen := length_decodeWith c b0 (more.getD 0 0) (more.getD 1 0)
  constructor
  · intro h
    simp only [decodeBytesWith] at h
    split at h
    · obtain ⟨rfl, rfl⟩ := Prod.mk.inj (Option.some.inj h)
      exact ⟨rfl, by rwa [hlen], by rw [hlen]⟩
    · cases h
  · rintro ⟨rfl, hfits, rfl⟩
    rw [hlen] at hfits ⊢
    exact if_pos hfits

theorem Decoded.length_pos (d : Decoded) : 0 < d.length := by
  cases d with
  | instr i => cases i <;> exact Nat.succ_pos _
  | unknown op => exact Nat.succ_pos _

theorem decodeBytesWith_eq_none_iff {c : Config} {b0 : Byte} {more : List Byte} :
    decodeBytesWith c (b0 :: more) = none ↔ more.length + 1 < lengthWith c b0 := by
  simp [decodeBytesWith]

/-- Settles O2: the four opcode bytes of a well-formed configuration are different, so that each encoding
begins with the byte that selects its own instruction, and the length decoded is the length encoded. -/
theorem decodeEncodeRoundTrip : Obligations.DecodeEncodeRoundTrip := by
  unfold Obligations.DecodeEncodeRoundTrip
  intro c hwf i rest
  cases i with
  | ldaImm imm8 =>
    exact decodeBytesWith_eq_some_iff.mpr ⟨decodeWith_ldaImm imm8 _, by simp [Decoded.length], rfl⟩
  | ldaZp zp8 =>
    exact decodeBytesWith_eq_some_iff.mpr ⟨decodeWith_ldaZp hwf zp8 _, by simp [Decoded.length], rfl⟩
  | ldaZpX zp8 =>
    exact decodeBytesWith_eq_some_iff.mpr ⟨decodeWith_ldaZpX hwf zp8 _, by simp [Decoded.length], rfl⟩
  | jsr target =>
    have hd : decodeWith c c.opcJsr (loByte target) (hiByte target) = .instr (.jsr target) := by
      rw [decodeWith_jsr hwf, Machine.wordOf_hiByte_loByte]
    exact decodeBytesWith_eq_some_iff.mpr ⟨hd, by simp [Decoded.length], rfl⟩

/-- Settles O3: an instruction is decoded from its own opcode byte and from every operand byte it has. -/
theorem encodeDecodeRoundTrip : Obligations.EncodeDecodeRoundTrip := by
  unfold Obligations.EncodeDecodeRoundTrip
  intro c b0 b1 b2 i h
  rcases decodeWith_cases c b0 b1 b2 with ⟨rfl, hd⟩ | ⟨rfl, hd⟩ | ⟨rfl, hd⟩ | ⟨rfl, hd⟩ | ⟨-, hd⟩ <;>
    rw [hd] at h <;> cases h
  · rfl
  · rfl
  · rfl
  · simp [encodeWith, Decoded.length]

/-- Settles O4: the run is cut after as many bytes as the opcode byte asks for, if it has them. -/
theorem decodingEveryByteRun : Obligations.DecodingEveryByteRun := by
  unfold Obligations.DecodingEveryByteRun
  intro c op more
  refine ⟨decodeBytesWith_eq_none_iff, fun d rest h => ?_⟩
  obtain ⟨rfl, hfits, rfl⟩ := decodeBytesWith_eq_some_iff.mp h
  have hlen := length_decodeWith c op (more.getD 0 0) (more.getD 1 0)
  have hpos := Decoded.length_pos (decodeWith c op (more.getD 0 0) (more.getD 1 0))
  refine ⟨hlen, ?_, ?_⟩
  · rw [List.drop_cons hpos]
  · rw [List.length_cons, List.length_drop]
    omega

/-! ### The opcode map -/

/-- A byte is unknown exactly where it is none of the four opcode bytes (R88). -/
theorem decodeWith_eq_unknown_iff {c : Config} {b0 b1 b2 : Byte} :
    decodeWith c b0 b1 b2 = .unknown b0 ↔
      b0 ≠ 0xA9#8 ∧ b0 ≠ c.opcLdaZp ∧ b0 ≠ 0xB5#8 ∧ b0 ≠ c.opcJsr := by
  rcases decodeWith_cases c b0 b1 b2 with ⟨h0, hd⟩ | ⟨h0, hd⟩ | ⟨h0, hd⟩ | ⟨h0, hd⟩ | ⟨h0, hd⟩ <;>
    rw [hd] <;> simp [h0]

/-- At the spec's own opcode bytes (R87, R88). -/
theorem decode_eq_unknown_iff {b0 b1 b2 : Byte} : decode b0 b1 b2 = .unknown b0 ↔ Machine.UnknownOpcode b0 := by
  unfold decode Machine.UnknownOpcode
  rw [decodeWith_eq_unknown_iff]
  simp only [specConfig]
  tauto

/-- What is no unknown opcode is an instruction. -/
theorem exists_instr_iff_not_unknown {c : Config} {b0 b1 b2 : Byte} :
    (∃ i, decodeWith c b0 b1 b2 = .instr i) ↔ decodeWith c b0 b1 b2 ≠ .unknown b0 := by
  cases h : decodeWith c b0 b1 b2 with
  | instr i => simp
  | unknown op => simp [eq_of_decodeWith_unknown h]

/-- Of the 256 bytes all but the four opcode bytes are unknown (R88). -/
theorem length_filter_unknown (b1 b2 : Byte) :
    ((List.range 256).filter fun n => decide (decode (BitVec.ofNat 8 n) b1 b2 = .unknown (BitVec.ofNat 8 n))).length =
      252 := by
  have hunknown : (Finset.range 256).filter (fun n => decode (BitVec.ofNat 8 n) b1 b2 = .unknown (BitVec.ofNat 8 n)) =
      Finset.range 256 \ {0x20, 0xA5, 0xA9, 0xB5} := by
    ext n
    simp only [decode_eq_unknown_iff, Machine.UnknownOpcode, Ne, BitVec.toNat_eq, BitVec.toNat_ofNat, Finset.mem_filter,
      Finset.mem_sdiff, Finset.mem_range, Finset.mem_insert, Finset.mem_singleton]
    omega
  calc _ = ((Finset.range 256).filter fun n => decode (BitVec.ofNat 8 n) b1 b2 = .unknown (BitVec.ofNat 8 n)).card := rfl
    _ = (Finset.range 256).card - Finset.card {0x20, 0xA5, 0xA9, 0xB5} := by
      rw [hunknown, Finset.card_sdiff_of_subset (by simp [Finset.insert_subset_iff])]
    _ = 252 := by simp

/-- Settles O6: the decoder compares the byte with four bytes, and 252 of the 256 bytes are none of them. -/
theorem exactlyFourOpcodes : Obligations.ExactlyFourOpcodes := by
  unfold Obligations.ExactlyFourOpcodes
  refine ⟨fun b0 b1 b2 => decode_eq_unknown_iff, fun b0 b1 b2 => ?_, length_filter_unknown⟩
  · unfold decode
    rw [exists_instr_iff_not_unknown, ← decode, Ne, decode_eq_unknown_iff]
    simp only [Machine.UnknownOpcode, List.mem_cons, List.not_mem_nil]
    tauto

/-- Settles O1: the four byte strings by the four rows of the map, the twenty bytes because each is unknown. -/
theorem specWordsDecode : Obligations.SpecWordsDecode := by
  unfold Obligations.SpecWordsDecode
  refine ⟨decodeWith_ldaImm _, decodeWith_ldaZp specConfig_wf _, decodeWith_ldaZpX specConfig_wf _,
    decodeWith_jsr specConfig_wf _ _, fun op hop b1 b2 => decode_eq_unknown_iff.mpr ?_⟩
  unfold Machine.UnknownOpcode
  revert op
  decide

end Sys2Proof

/-! ## Words in memory, the canonical form, and a loaded image (spec/20_memory.md R53 to R57, R67) -/

namespace Sys2Proof.Machine

/-! ### Words -/

/-- `w[7:0]` in numbers (R8). -/
theorem toNat_loByte (w : Addr) : (loByte w).toNat = w.toNat % 256 := by
  simp [loByte]

/-- `w[15:8]` in numbers (R8). -/
theorem toNat_hiByte (w : Addr) : (hiByte w).toNat = w.toNat / 256 := by
  have hw : w.toNat / 256 < 256 := by omega
  simpa [hiByte, Nat.shiftRight_eq_div_pow] using hw

theorem Memory.read_writeWord_high (m : Memory) (a w : Addr) : (m.writeWord a w).read (a + 1#16) = hiByte w :=
  Memory.read_write_self _ _ _

/-- The high byte goes to another address and leaves the low byte (R56). -/
theorem Memory.read_writeWord_low (m : Memory) (a w : Addr) : (m.writeWord a w).read a = loByte w := by
  rw [Memory.writeWord, Memory.read_write_of_ne (addr_succ_ne a).symm, Memory.read_write_self]

theorem Memory.read_writeWord_of_ne {a b : Addr} (h : b ≠ a) (hsucc : b ≠ a + 1#16) (m : Memory) (w : Addr) :
    (m.writeWord a w).read b = m.read b := by
  rw [Memory.writeWord, Memory.read_write_of_ne hsucc, Memory.read_write_of_ne h]

theorem Memory.readWord_writeWord (m : Memory) (a w : Addr) : (m.writeWord a w).readWord a = w := by
  rw [Memory.readWord, Memory.read_writeWord_high, Memory.read_writeWord_low, wordOf_hiByte_loByte]

/-- Settles O8: the word store is two byte stores at two different addresses. -/
theorem wordStoreIsLittleEndian : Obligations.WordStoreIsLittleEndian := by
  unfold Obligations.WordStoreIsLittleEndian
  intro m a w
  refine ⟨m.readWord_writeWord a w, ?_, ?_, fun b h hsucc => Memory.read_writeWord_of_ne h hsucc m w⟩
  · rw [Memory.read_writeWord_low, toNat_loByte]
  · rw [Memory.read_writeWord_high, toNat_hiByte]

/-- Settles O29: the two bytes fetched are those of the word at `PC`, and two single fetches are one of two
bytes. -/
theorem fetchWordIsWordRead : Obligations.FetchWordIsWordRead := by
  unfold Obligations.FetchWordIsWordRead
  intro s
  calc fetchWord s = (s.mem.readWord s.pc, consume 1 (consume 1 s)) := rfl
    _ = (s.mem.readWord s.pc, consume 2 s) := by rw [consume_consume]

/-! ### The canonical form holds nothing twice -/

/-- A canonical memory lists no key outside the 65536 addresses (R33). -/
theorem Memory.lookup_of_wf_of_le {m : Memory} (h : m.wf = true) {n : Nat} (hn : 65536 ≤ n) :
    m.lookup n = Memory.unlisted := by
  induction m with
  | nil => rfl
  | cons cell rest ih =>
    obtain ⟨hk, -, -, hrest⟩ := Memory.wf_cons.mp h
    have hne : cell.1 ≠ n := by omega
    rw [Memory.lookup, if_neg hne, ih hrest]

/-- Canonical memories that read alike look up alike at every key, an address or not. -/
theorem Memory.lookup_eq_of_read_eq {m m' : Memory} (h : m.wf = true) (h' : m'.wf = true)
    (hread : ∀ a : Addr, m.read a = m'.read a) (n : Nat) : m.lookup n = m'.lookup n := by
  by_cases hn : n < 65536
  · have hkey : (BitVec.ofNat 16 n).toNat = n := (BitVec.toNat_ofNat n 16).trans (Nat.mod_eq_of_lt hn)
    simpa only [Memory.read, hkey] using hread (BitVec.ofNat 16 n)
  · rw [Memory.lookup_of_wf_of_le h (not_lt.mp hn), Memory.lookup_of_wf_of_le h' (not_lt.mp hn)]

@[simp] theorem Memory.lookup_cons_self (k : Nat) (b : Byte) (rest : Memory) : Memory.lookup ((k, b) :: rest) k = b :=
  if_pos rfl

/-- The first entry of a canonical memory holds something. -/
theorem Memory.lookup_first_ne_unlisted {k : Nat} {b : Byte} {rest : Memory} (h : Memory.wf ((k, b) :: rest) = true) :
    Memory.lookup ((k, b) :: rest) k ≠ Memory.unlisted := by
  obtain ⟨-, hb, -, -⟩ := Memory.wf_cons.mp h
  rwa [Memory.lookup_cons_self]

/-- In a canonical memory no key before the first is listed. -/
theorem Memory.lookup_cons_of_lt {k n : Nat} {b : Byte} {rest : Memory} (h : Memory.wf ((k, b) :: rest) = true)
    (hn : n < k) : Memory.lookup ((k, b) :: rest) n = Memory.unlisted := by
  obtain ⟨-, -, hrise, -⟩ := Memory.wf_cons.mp h
  refine Memory.lookup_of_not_listed fun cell hcell => ?_
  rcases List.mem_cons.mp hcell with rfl | hcell
  · exact hn.ne'
  · exact (hn.trans (hrise cell hcell)).ne'

/-- Behind its first entry a canonical memory looks up as before, but for the first key, which is gone. -/
theorem Memory.lookup_tail {k : Nat} {b : Byte} {rest : Memory} (h : Memory.wf ((k, b) :: rest) = true) (n : Nat) :
    Memory.lookup rest n = if n = k then Memory.unlisted else Memory.lookup ((k, b) :: rest) n := by
  obtain ⟨-, -, hrise, -⟩ := Memory.wf_cons.mp h
  by_cases hn : n = k
  · rw [if_pos hn]
    exact Memory.lookup_of_not_listed fun cell hcell => hn ▸ (hrise cell hcell).ne'
  · rw [if_neg hn, Memory.lookup, if_neg (Ne.symm hn)]

/-- The first key of a canonical memory is listed in every memory that looks up alike, so that none of
them begins after it. -/
theorem Memory.first_key_le {k k' : Nat} {b b' : Byte} {rest rest' : Memory} (h : Memory.wf ((k, b) :: rest) = true)
    (h' : Memory.wf ((k', b') :: rest') = true)
    (hlookup : ∀ n, Memory.lookup ((k, b) :: rest) n = Memory.lookup ((k', b') :: rest') n) : k' ≤ k := by
  by_contra hlt
  exact Memory.lookup_first_ne_unlisted h ((hlookup k).trans (Memory.lookup_cons_of_lt h' (not_le.mp hlt)))

theorem Memory.eq_of_lookup_eq {m m' : Memory} (h : m.wf = true) (h' : m'.wf = true)
    (hlookup : ∀ n, m.lookup n = m'.lookup n) : m = m' := by
  induction m generalizing m' with
  | nil =>
    cases m' with
    | nil => rfl
    | cons cell' rest' => exact absurd (hlookup cell'.1).symm (Memory.lookup_first_ne_unlisted h')
  | cons cell rest ih =>
    cases m' with
    | nil => exact absurd (hlookup cell.1) (Memory.lookup_first_ne_unlisted h)
    | cons cell' rest' =>
      obtain ⟨k, b⟩ := cell
      obtain ⟨k', b'⟩ := cell'
      obtain rfl : k = k' :=
        le_antisymm (Memory.first_key_le h' h fun n => (hlookup n).symm) (Memory.first_key_le h h' hlookup)
      obtain rfl : b = b' := by simpa using hlookup k
      obtain ⟨-, -, -, hwf⟩ := Memory.wf_cons.mp h
      obtain ⟨-, -, -, hwf'⟩ := Memory.wf_cons.mp h'
      have hrest : rest = rest' := ih hwf hwf' fun n => by
        rw [Memory.lookup_tail h, Memory.lookup_tail h', hlookup]
      rw [hrest]

/-- Settles O9: the two lists begin with the same entry, and behind it read alike again. -/
theorem canonicalMemoryIsUnique : Obligations.CanonicalMemoryIsUnique := by
  unfold Obligations.CanonicalMemoryIsUnique
  intro m m' h h' hread
  exact Memory.eq_of_lookup_eq h h' (Memory.lookup_eq_of_read_eq h h' hread)

/-! ### A loaded image -/

/-- After the writes of an image in order, an address reads the last byte written to it, or as before (R67). -/
theorem Memory.read_load (image : List (Addr × Byte)) (m : Memory) (a : Addr) :
    (m.load image).read a = ((image.reverse.find? fun w => w.1 == a).map Prod.snd).getD (m.read a) := by
  induction image generalizing m with
  | nil => rfl
  | cons w rest ih =>
    rw [Memory.load, ih, List.reverse_cons, List.find?_append]
    cases rest.reverse.find? fun w => w.1 == a with
    | some last => rfl
    | none =>
      by_cases hw : w.1 = a
      · simp [hw]
      · simp [hw, Memory.read_write_of_ne (Ne.symm hw)]

/-- Settles O10: the image is written to the memory of zeros, which is canonical. -/
theorem loadedImageReads : Obligations.LoadedImageReads := by
  unfold Obligations.LoadedImageReads
  intro c s image h
  have hempty : ¬ Running (s.setMem []) := h
  refine ⟨s.setMem (Memory.load [] image), ?_, fun a => ?_, Memory.wf_load image rfl, rfl⟩
  · rw [hostSession_cons (hostAct_memInit h c), hostSession_singleton, hostAct_loadImage hempty]
    rfl
  · simp [Memory.read_load]

end Sys2Proof.Machine

/-! ## The two modes of the flag update (spec/41_load.md R123) -/

namespace Sys2Proof.Machine

/-- The modes agree where the legacy mode keeps no flag that the other would clear: the six other flags are
kept in both. -/
theorem setZN_modes_eq_iff (v p : Byte) :
    setZN .clearThenSet v p = setZN .setOnly v p ↔
      (flag .z p = true → v = 0x00#8) ∧ (flag .n p = true → v.getLsbD 7 = true) := by
  have hz : flag .z (setZN .clearThenSet v p) = flag .z (setZN .setOnly v p) ↔ (flag .z p = true → v = 0x00#8) := by
    rw [flag_z_setZN_clearThenSet, flag_setZN_setOnly]
    cases flag .z p <;> simp
  have hn : flag .n (setZN .clearThenSet v p) = flag .n (setZN .setOnly v p) ↔ (flag .n p = true → v.getLsbD 7 = true) := by
    rw [flag_n_setZN_clearThenSet, flag_setZN_setOnly]
    cases flag .n p <;> simp
  rw [← hz, ← hn]
  constructor
  · intro h
    exact ⟨by rw [h], by rw [h]⟩
  · rintro ⟨hz, hn⟩
    refine status_ext fun f => ?_
    by_cases hfz : f = .z
    · rw [hfz, hz]
    by_cases hfn : f = .n
    · rw [hfn, hn]
    rw [flag_setZN_of_ne hfz hfn, flag_setZN_of_ne hfz hfn]

/-- Settles O11: under `set_only` a load of 0x00 and then one of 0x80 set both flags. -/
theorem flagUpdate : Obligations.FlagUpdate := by
  unfold Obligations.FlagUpdate
  refine ⟨fun v p => ⟨flag_z_setZN_clearThenSet v p, flag_n_setZN_clearThenSet v p⟩, fun v p => ?_,
    fun mode v p f hz hn => flag_setZN_of_ne hz hn mode v p, fun v p => ?_, fun v p => ?_, 0x00#8, 0x80#8, by decide⟩
  · simp [flag_setZN_setOnly]
  · rw [Ne, setZN_modes_eq_iff, not_and_or, Classical.not_imp, Classical.not_imp, Bool.not_eq_true]
  · rintro ⟨hz, hn⟩
    obtain rfl : v = 0x00#8 := by simpa using hz
    rw [flag_n_setZN_clearThenSet] at hn
    exact absurd hn (by decide)

end Sys2Proof.Machine

/-! ## What LDA zero page, JSR and an unknown opcode do, and what they leave alone (spec/41_load.md R125,
spec/42_jsr.md, spec/40_execute_loop.md R110) -/

namespace Sys2Proof.Machine

/-! ### LDA zero page -/

theorem execWith_ldaZp_effect (c : Config) (zp8 : Byte) (s : State) :
    LoadEffect c (s.mem.read (zp8.setWidth 16)) 3 s (execWith c (.ldaZp zp8) s) :=
  (execWith_ldaZp c zp8 s).symm ▸ loaded_effect c (s.mem.read (eaZp zp8)) 3 s

theorem decodeAt_ldaZp {c : Config} (hwf : c.wf = true) {s : State} (h : s.mem.read s.pc = c.opcLdaZp) :
    decodeAt c s = .instr (.ldaZp (s.mem.read (s.pc + 1#16))) := by
  rw [decodeAt, h, decodeWith_ldaZp hwf]

theorem stepWith_ldaZp {c : Config} (hwf : c.wf = true) {s : State} (hr : Running s) (h : s.mem.read s.pc = c.opcLdaZp) :
    ∃ t, stepWith c s = .next t ∧ LoadEffect c (s.mem.read ((s.mem.read (s.pc + 1#16)).setWidth 16)) 3 s t :=
  ⟨_, stepWith_of_instr hr (decodeAt_ldaZp hwf h), execWith_ldaZp_effect c _ s⟩

/-- Settles O14: the instruction leaves a loaded state, and a step at `OPC_LDA_ZP` runs the instruction. -/
theorem ldaZeroPageEffect : Obligations.LdaZeroPageEffect := by
  unfold Obligations.LdaZeroPageEffect
  refine ⟨fun s zp8 => ?_, fun c s hwf hr h => stepWith_ldaZp hwf hr h, fun s hr h => ?_⟩
  · exact ⟨_, exec_eq_execWith _ s, execWith_ldaZp_effect specConfig zp8 s⟩
  · rw [step_eq_stepWith]
    exact stepWith_ldaZp specConfig_wf hr h

/-! ### JSR -/

/-- The store is the word store at the stack address, which changes two bytes (R56, R140, R142). -/
theorem execWith_jsr_effect (c : Config) (target : Addr) (s : State) :
    JsrEffect c target s (execWith c (.jsr target) s) := by
  rw [execWith_jsr]
  exact
    { counter := rfl
      storedLow := Memory.read_writeWord_low _ _ _
      storedHigh := Memory.read_writeWord_high _ _ _
      memory := fun addr h => by
        simp only [List.mem_cons, List.not_mem_nil, or_false, not_or] at h
        exact Memory.read_writeWord_of_ne h.1 h.2 _ _
      stack := rfl
      budget := rfl
      accumulator := rfl
      indexX := rfl
      indexY := rfl
      status := rfl
      diagnostics := rfl }

theorem exec_jsr_effect {s t : State} {target : Addr} (h : exec (.jsr target) s = .next t) :
    JsrEffect specConfig target s t := by
  obtain rfl : execWith specConfig (.jsr target) s = t := by simpa [exec_eq_execWith] using h
  exact execWith_jsr_effect specConfig target s

theorem decodeAt_jsr {c : Config} (hwf : c.wf = true) {s : State} (h : s.mem.read s.pc = c.opcJsr) :
    decodeAt c s = .instr (.jsr (wordOf (s.mem.read (s.pc + 2#16)) (s.mem.read (s.pc + 1#16)))) := by
  rw [decodeAt, h, decodeWith_jsr hwf]

theorem stepWith_jsr {c : Config} (hwf : c.wf = true) {s : State} (hr : Running s) (h : s.mem.read s.pc = c.opcJsr) :
    ∃ t, stepWith c s = .next t ∧
      JsrEffect c (wordOf (s.mem.read (s.pc + 2#16)) (s.mem.read (s.pc + 1#16))) s t :=
  ⟨_, stepWith_of_instr hr (decodeAt_jsr hwf h), execWith_jsr_effect c _ s⟩

/-- The stack address in numbers: no sum wraps, because 0x0100 + 0xFF is below 65536 (R140). -/
theorem toNat_stackAddr (sp : Byte) : (stackAddr sp).toNat = 0x0100 + sp.toNat := by
  unfold stackAddr
  bv_omega

/-- Settles O16: the instruction has JSR's effect, and a step at `OPC_JSR` runs the instruction. -/
theorem jsrStoresReturnWord : Obligations.JsrStoresReturnWord := by
  unfold Obligations.JsrStoresReturnWord
  refine ⟨fun s target => ?_, fun c s hwf hr h => stepWith_jsr hwf hr h, fun s hr h => ?_, fun sp => ?_⟩
  · exact ⟨_, exec_eq_execWith _ s, execWith_jsr_effect specConfig target s⟩
  · rw [step_eq_stepWith]
    exact stepWith_jsr specConfig_wf hr h
  · have hsp := toNat_stackAddr sp
    refine ⟨hsp, by omega, ?_⟩
    bv_omega

/-- Settles O17: at the spec's delta `SP` stays, so that both words go to one place. -/
theorem secondJsrOverwritesFirst : Obligations.SecondJsrOverwritesFirst := by
  unfold Obligations.SecondJsrOverwritesFirst
  intro s t u first second ht hu
  have hfirst := exec_jsr_effect ht
  have hsecond := exec_jsr_effect hu
  have hsp : t.sp = s.sp := by simpa [specConfig] using hfirst.stack
  have hword : returnWord t = first + 2#16 := by rw [returnWord, hfirst.counter]
  rw [← hsp]
  refine ⟨by simpa [specConfig] using hsecond.stack, ?_, fun addr h => ?_⟩
  · rw [Memory.readWord, hsecond.storedLow, hsecond.storedHigh, wordOf_hiByte_loByte, hword]
  · rw [hsecond.memory addr h, hfirst.memory addr (hsp ▸ h)]

/-- Settles O18: the next fetch reads the two stored bytes and, after them, one that the store left alone. -/
theorem fetchSeesStoredWord : Obligations.FetchSeesStoredWord := by
  unfold Obligations.FetchSeesStoredWord
  intro s t ht
  have heffect := exec_jsr_effect ht
  have hoverlap : stackAddr s.sp + 2#16 ∉ [stackAddr s.sp, stackAddr s.sp + 1#16] := by
    simp only [List.mem_cons, List.not_mem_nil, or_false, not_or]
    constructor <;> bv_omega
  rw [decodeAt, heffect.counter, heffect.storedLow, heffect.storedHigh, heffect.memory _ hoverlap, decode]

/-! ### An unknown opcode -/

theorem unknownOpcode_effect (op : Byte) (s : State) : UnknownEffect op s (unknownOpcode op s) where
  counter := rfl
  budget := rfl
  diagnostics := rfl
  accumulator := rfl
  indexX := rfl
  indexY := rfl
  stack := rfl
  status := rfl
  memory _ _ := rfl

/-- What stands at `PC` is unknown exactly where the byte there is none of the four opcode bytes (R88). -/
theorem decodeAt_eq_unknown_iff {c : Config} {s : State} {op : Byte} :
    decodeAt c s = .unknown op ↔ op = s.mem.read s.pc ∧
      s.mem.read s.pc ≠ 0xA9#8 ∧ s.mem.read s.pc ≠ c.opcLdaZp ∧ s.mem.read s.pc ≠ 0xB5#8 ∧ s.mem.read s.pc ≠ c.opcJsr := by
  rw [decodeAt, ← decodeWith_eq_unknown_iff (b1 := s.mem.read (s.pc + 1#16)) (b2 := s.mem.read (s.pc + 2#16))]
  constructor
  · intro h
    obtain rfl := eq_of_decodeWith_unknown h
    exact ⟨rfl, h⟩
  · rintro ⟨rfl, h⟩
    exact h

/-- At the spec's own opcode bytes. -/
theorem decodeAt_specConfig_eq_unknown_iff {s : State} {op : Byte} :
    decodeAt specConfig s = .unknown op ↔ op = s.mem.read s.pc ∧ UnknownOpcode (s.mem.read s.pc) := by
  rw [decodeAt_eq_unknown_iff, ← decodeWith_eq_unknown_iff (b1 := 0) (b2 := 0), ← decode, decode_eq_unknown_iff]

theorem stepWith_of_unknown {c : Config} {s : State} {op : Byte} (hr : Running s) (h : decodeAt c s = .unknown op) :
    stepWith c s = .next (unknownOpcode op s) :=
  stepWith_eq_next_iff.mpr ⟨hr, nextWith_of_unknown h⟩

/-- Settles O19: a byte that is none of the four is decoded as unknown. -/
theorem unknownOpcodeEffect : Obligations.UnknownOpcodeEffect := by
  unfold Obligations.UnknownOpcodeEffect
  refine ⟨fun c s hr hImm hZp hZpX hJsr => ?_, fun s hr h => ?_⟩
  · have hd : decodeAt c s = .unknown (s.mem.read s.pc) := decodeAt_eq_unknown_iff.mpr ⟨rfl, hImm, hZp, hZpX, hJsr⟩
    exact ⟨_, stepWith_of_unknown hr hd, unknownOpcode_effect _ s⟩
  · have hd : decodeAt specConfig s = .unknown (s.mem.read s.pc) := decodeAt_specConfig_eq_unknown_iff.mpr ⟨rfl, h⟩
    rw [step_eq_stepWith]
    exact ⟨_, stepWith_of_unknown hr hd, unknownOpcode_effect _ s⟩

end Sys2Proof.Machine

/-! ## What every step does (spec/40_execute_loop.md R105, R106, R112; spec/70_reset_and_hazards.md R185) -/

namespace Sys2Proof.Machine

/-! ### The three kinds of step -/

/-- The byte a load loads; JSR loads none (R124 to R126). -/
def loadedByte (i : Instr) (s : State) : Option Byte :=
  match i with
  | .ldaImm imm8 => some imm8
  | .ldaZp zp8 => some (s.mem.read (eaZp zp8))
  | .ldaZpX zp8 => some (s.mem.read (eaZpX zp8 s.x))
  | .jsr _ => none

theorem loadedByte_eq_some_or_jsr (i : Instr) (s : State) : (∃ v, loadedByte i s = some v) ∨ ∃ target, i = .jsr target := by
  cases i with
  | ldaImm imm8 => exact .inl ⟨_, rfl⟩
  | ldaZp zp8 => exact .inl ⟨_, rfl⟩
  | ldaZpX zp8 => exact .inl ⟨_, rfl⟩
  | jsr target => exact .inr ⟨target, rfl⟩

theorem execWith_of_load {i : Instr} {s : State} {v : Byte} (h : loadedByte i s = some v) (c : Config) :
    execWith c i s = loaded c v (Decoded.instr i).cycles s := by
  cases i with
  | ldaImm imm8 =>
    obtain rfl : imm8 = v := Option.some.inj h
    exact execWith_ldaImm c imm8 s
  | ldaZp zp8 =>
    obtain rfl : s.mem.read (eaZp zp8) = v := Option.some.inj h
    exact execWith_ldaZp c zp8 s
  | ldaZpX zp8 =>
    obtain rfl : s.mem.read (eaZpX zp8 s.x) = v := Option.some.inj h
    exact execWith_ldaZpX c zp8 s
  | jsr target => cases h

theorem length_of_load {i : Instr} {s : State} {v : Byte} (h : loadedByte i s = some v) : (Decoded.instr i).length = 2 := by
  cases i with
  | ldaImm imm8 => rfl
  | ldaZp zp8 => rfl
  | ldaZpX zp8 => rfl
  | jsr target => cases h

/-- A step is a load, a JSR or an unknown opcode, by what stands at `PC`. -/
theorem nextWith_cases (c : Config) (s : State) :
    (∃ i v, decodeAt c s = .instr i ∧ loadedByte i s = some v ∧ nextWith c s = loaded c v (Decoded.instr i).cycles s) ∨
    (∃ target, decodeAt c s = .instr (.jsr target) ∧ nextWith c s = execWith c (.jsr target) s) ∨
    (∃ op, decodeAt c s = .unknown op ∧ nextWith c s = unknownOpcode op s) := by
  cases hd : decodeAt c s with
  | instr i =>
    rcases loadedByte_eq_some_or_jsr i s with ⟨v, hv⟩ | ⟨target, rfl⟩
    · exact .inl ⟨i, v, rfl, hv, (nextWith_of_instr hd).trans (execWith_of_load hv c)⟩
    · exact .inr (.inl ⟨target, rfl, nextWith_of_instr hd⟩)
  | unknown op => exact .inr (.inr ⟨op, rfl, nextWith_of_unknown hd⟩)

/-! ### The step and the decoded instruction -/

theorem step_of_instr {s : State} {i : Instr} (hr : Running s) (h : decodeAt specConfig s = .instr i) :
    step s = exec i s := by
  rw [step_eq_stepWith, stepWith_of_instr hr h, exec_eq_execWith]

/-- Bytes from `PC` on that are the encoding of an instruction are decoded to it. -/
theorem decodeAt_of_encode {s : State} {i : Instr}
    (h : ∀ k (hk : k < (encode i).length), s.mem.read (s.pc + BitVec.ofNat 16 k) = (encode i)[k]) :
    decodeAt specConfig s = .instr i := by
  have hfirst : ∀ b, (encode i).head? = some b → s.mem.read s.pc = b := by
    intro b hb
    obtain ⟨hk, hb⟩ := List.getElem?_eq_some_iff.mp (List.head?_eq_getElem? ▸ hb)
    rw [← hb, ← h 0 hk, BitVec.add_zero]
  cases i with
  | ldaImm imm8 =>
    rw [decodeAt_ldaImm specConfig (hfirst _ rfl)]
    exact congrArg (Decoded.instr ∘ Instr.ldaImm) (h 1 Nat.one_lt_two)
  | ldaZp zp8 =>
    rw [decodeAt_ldaZp specConfig_wf (hfirst _ rfl)]
    exact congrArg (Decoded.instr ∘ Instr.ldaZp) (h 1 Nat.one_lt_two)
  | ldaZpX zp8 =>
    rw [decodeAt_ldaZpX specConfig_wf (hfirst _ rfl)]
    exact congrArg (Decoded.instr ∘ Instr.ldaZpX) (h 1 Nat.one_lt_two)
  | jsr target =>
    have hlo : s.mem.read (s.pc + 1#16) = loByte target := h 1 (by simp [encode, encodeWith])
    have hhi : s.mem.read (s.pc + 2#16) = hiByte target := h 2 (by simp [encode, encodeWith])
    rw [decodeAt_jsr specConfig_wf (hfirst _ rfl), hlo, hhi, wordOf_hiByte_loByte]

/-- Settles O21: a step runs what it decodes, and an encoding is decoded to its instruction. -/
theorem stepRunsDecodedInstruction : Obligations.StepRunsDecodedInstruction := by
  unfold Obligations.StepRunsDecodedInstruction
  exact ⟨fun s i hr h => step_of_instr hr h, fun s i hr h => step_of_instr hr (decodeAt_of_encode h)⟩

/-- Settles O22: a running step has a next state, and a Halted core has only the fault. -/
theorem haltedHasNoStep : Obligations.HaltedHasNoStep := by
  unfold Obligations.HaltedHasNoStep
  intro s
  by_cases hr : Running s
  · simp [step_of_running hr, SafeOutcome, hr]
  · have hhalted : s.cyc ≤ 0 := not_lt.mp hr
    simp [step_eq_stepWith, stepWith_of_halted hr, SafeOutcome, hhalted]

/-! ### What every step keeps -/

/-- Settles O23: each kind of step keeps `X`, `Y` and the inert flags, and only JSR moves `SP`. -/
theorem runningStepAlwaysCompletes : Obligations.RunningStepAlwaysCompletes := by
  unfold Obligations.RunningStepAlwaysCompletes
  intro c s hr
  refine ⟨nextWith c s, stepWith_of_running hr, ?_⟩
  rcases nextWith_cases c s with ⟨i, v, -, -, ht⟩ | ⟨target, -, ht⟩ | ⟨op, -, ht⟩ <;> rw [ht]
  · have heffect := loaded_effect c v (Decoded.instr i).cycles s
    exact ⟨heffect.indexX, heffect.indexY, heffect.otherFlags, .inl heffect.stack⟩
  · have heffect := execWith_jsr_effect c target s
    exact ⟨heffect.indexX, heffect.indexY, fun f _ _ => congrArg (flag f) heffect.status, .inr heffect.stack⟩
  · have heffect := unknownOpcode_effect op s
    exact ⟨heffect.indexX, heffect.indexY, fun f _ _ => congrArg (flag f) heffect.status, .inl heffect.stack⟩

/-- Settles O20: an unknown opcode adds its event, and the other two kinds of step add none. -/
theorem atMostOneEventPerStep : Obligations.AtMostOneEventPerStep := by
  unfold Obligations.AtMostOneEventPerStep
  intro s t h
  rw [step_eq_stepWith] at h
  obtain ⟨-, rfl⟩ := stepWith_eq_next_iff.mp h
  have hknown : ∀ {i}, decodeAt specConfig s = .instr i → ¬ UnknownOpcode (s.mem.read s.pc) := fun hd hunknown => by
    rw [decodeAt_specConfig_eq_unknown_iff.mpr ⟨rfl, hunknown⟩] at hd
    cases hd
  rcases nextWith_cases specConfig s with ⟨i, v, hd, -, ht⟩ | ⟨target, hd, ht⟩ | ⟨op, hd, ht⟩ <;> rw [ht]
  · exact ⟨fun hunknown => absurd hunknown (hknown hd), fun _ => (loaded_effect specConfig v _ s).diagnostics⟩
  · exact ⟨fun hunknown => absurd hunknown (hknown hd), fun _ => (execWith_jsr_effect specConfig target s).diagnostics⟩
  · obtain ⟨rfl, hunknown⟩ := decodeAt_specConfig_eq_unknown_iff.mp hd
    exact ⟨fun _ => (unknownOpcode_effect _ s).diagnostics, fun hk => absurd hunknown hk⟩

/-- A step that is no JSR moves `PC` past what stands there (R26, R81). -/
theorem pc_nextWith {c : Config} {s : State} (h : ∀ target, decodeAt c s ≠ .instr (.jsr target)) :
    (nextWith c s).pc = s.pc + BitVec.ofNat 16 (decodeAt c s).length := by
  rcases nextWith_cases c s with ⟨i, v, hd, hv, ht⟩ | ⟨target, hd, -⟩ | ⟨op, hd, ht⟩
  · rw [ht, hd, length_of_load hv]
    rfl
  · exact absurd hd (h target)
  · rw [ht, hd]
    rfl

/-- Settles O25: the charge is the table's at every step, and the length at every step but JSR's. -/
theorem cycleAndLengthTable : Obligations.CycleAndLengthTable := by
  unfold Obligations.CycleAndLengthTable
  intro c s t h
  obtain ⟨-, rfl⟩ := stepWith_eq_next_iff.mp h
  have hbounds := cyc_nextWith_bounds c s
  refine ⟨cyc_nextWith c s, by omega, by omega, fun target hd => ?_, pc_nextWith⟩
  rw [nextWith_of_instr hd]
  exact (execWith_jsr_effect c target s).counter

/-- Settles O26: a load and an unknown opcode leave every byte, and JSR every byte but its two. -/
theorem onlyJsrStores : Obligations.OnlyJsrStores := by
  unfold Obligations.OnlyJsrStores
  intro c s t addr h hchanged
  obtain ⟨-, rfl⟩ := stepWith_eq_next_iff.mp h
  rcases nextWith_cases c s with ⟨i, v, -, -, ht⟩ | ⟨target, hd, ht⟩ | ⟨op, -, ht⟩ <;> rw [ht] at hchanged
  · exact absurd ((loaded_effect c v _ s).memory addr List.not_mem_nil) hchanged
  · have hstored : addr ∈ [stackAddr s.sp, stackAddr s.sp + 1#16] := by
      by_contra hout
      exact hchanged ((execWith_jsr_effect c target s).memory addr hout)
    exact ⟨⟨target, hd⟩, by simpa using hstored⟩
  · exact absurd ((unknownOpcode_effect op s).memory addr List.not_mem_nil) hchanged

/-! ### What no step reads -/

/-- What two steps from states that differ in `A`, `Y`, `P` and `DIAG` only have in common (R20). -/
structure AgreeAfter (s s' t t' : State) : Prop where
  reads : SameReads t t'
  budget : t.cyc = t'.cyc
  events : ∃ events, t.diag = s.diag ++ events ∧ t'.diag = s'.diag ++ events
  accumulator : t.a = t'.a ∨ (t.a = s.a ∧ t'.a = s'.a)
  indexY : t.y = s.y ∧ t'.y = s'.y
  status : s.p = s'.p → t.p = t'.p

section Agree

variable {s s' : State} (h : SameReads s s') (hcyc : s.cyc = s'.cyc) (c : Config)
include h

theorem SameReads.decodeAt_eq : decodeAt c s' = decodeAt c s := by
  rw [decodeAt, decodeAt, h.counter, h.memory]

theorem SameReads.loadedByte_eq (i : Instr) : loadedByte i s' = loadedByte i s := by
  cases i <;> simp only [loadedByte, h.memory, h.indexX]

include hcyc

theorem loaded_agree (v : Byte) (cycles : Nat) : AgreeAfter s s' (loaded c v cycles s) (loaded c v cycles s') where
  reads := ⟨h.indexX, h.stack, by simp only [loaded, h.counter], h.memory⟩
  budget := by simp only [loaded, hcyc]
  events := ⟨[], by simp [loaded]⟩
  accumulator := .inl rfl
  indexY := ⟨rfl, rfl⟩
  status hp := by simp only [loaded, hp]

theorem execWith_jsr_agree (target : Addr) :
    AgreeAfter s s' (execWith c (.jsr target) s) (execWith c (.jsr target) s') := by
  rw [execWith_jsr, execWith_jsr]
  exact
    { reads := ⟨h.indexX, by simp only [h.stack], rfl, by simp only [h.memory, h.stack, h.counter]⟩
      budget := by simp only [hcyc]
      events := ⟨[], by simp⟩
      accumulator := .inr ⟨rfl, rfl⟩
      indexY := ⟨rfl, rfl⟩
      status := id }

theorem unknownOpcode_agree (op : Byte) : AgreeAfter s s' (unknownOpcode op s) (unknownOpcode op s') := by
  rw [unknownOpcode_eq, unknownOpcode_eq]
  exact
    { reads := ⟨h.indexX, h.stack, by simp only [h.counter], h.memory⟩
      budget := by simp only [hcyc]
      events := ⟨[.unsupported op], rfl, rfl⟩
      accumulator := .inr ⟨rfl, rfl⟩
      indexY := ⟨rfl, rfl⟩
      status := id }

/-- The two steps are of one kind, because they decode the same bytes, and load the same byte. -/
theorem nextWith_agree : AgreeAfter s s' (nextWith c s) (nextWith c s') := by
  rcases nextWith_cases c s with ⟨i, v, hd, hv, ht⟩ | ⟨target, hd, ht⟩ | ⟨op, hd, ht⟩ <;> rw [ht]
  · have hv' : loadedByte i s' = some v := (h.loadedByte_eq i).trans hv
    rw [nextWith_of_instr ((h.decodeAt_eq c).trans hd), execWith_of_load hv']
    exact loaded_agree h hcyc c v _
  · rw [nextWith_of_instr ((h.decodeAt_eq c).trans hd)]
    exact execWith_jsr_agree h hcyc c target
  · rw [nextWith_of_unknown ((h.decodeAt_eq c).trans hd)]
    exact unknownOpcode_agree h hcyc op

end Agree

/-- Settles O28: the two steps are of one kind and take the same inputs. -/
theorem inertStateIsNeverRead : Obligations.InertStateIsNeverRead := by
  unfold Obligations.InertStateIsNeverRead
  intro c s s' t t' hsame hcyc ht ht'
  obtain ⟨-, rfl⟩ := stepWith_eq_next_iff.mp ht
  obtain ⟨-, rfl⟩ := stepWith_eq_next_iff.mp ht'
  obtain ⟨hreads, hbudget, hevents, ha, hy, hp⟩ := nextWith_agree hsame hcyc c
  exact ⟨hreads, hbudget, hevents, ha, hy, hp⟩

/-! ### The pseudocode -/

section Pseudocode

variable (c : Config) (s : State)

theorem pseudoLdaImm_eq : pseudoLdaImm c (consume 1 s) = execWith c (.ldaImm (s.mem.read (s.pc + 1#16))) s := by
  calc pseudoLdaImm c (consume 1 s) = ldaImmWith c (s.mem.read (s.pc + 1#16)) (consume 1 (consume 1 s)) := rfl
    _ = execWith c (.ldaImm (s.mem.read (s.pc + 1#16))) s := by rw [consume_consume, execWith]

theorem pseudoLdaZp_eq : pseudoLdaZp c (consume 1 s) = execWith c (.ldaZp (s.mem.read (s.pc + 1#16))) s := by
  calc pseudoLdaZp c (consume 1 s) = ldaZpWith c (s.mem.read (s.pc + 1#16)) (consume 1 (consume 1 s)) := rfl
    _ = execWith c (.ldaZp (s.mem.read (s.pc + 1#16))) s := by rw [consume_consume, execWith]

theorem pseudoLdaZpX_eq : pseudoLdaZpX c (consume 1 s) = execWith c (.ldaZpX (s.mem.read (s.pc + 1#16))) s := by
  calc pseudoLdaZpX c (consume 1 s) = ldaZpXWith c (s.mem.read (s.pc + 1#16)) (consume 1 (consume 1 s)) := rfl
    _ = execWith c (.ldaZpX (s.mem.read (s.pc + 1#16))) s := by rw [consume_consume, execWith]

theorem pseudoJsr_eq : pseudoJsr c (consume 1 s) =
    execWith c (.jsr (wordOf (s.mem.read (s.pc + 2#16)) (s.mem.read (s.pc + 1#16)))) s := by
  have hsecond : s.pc + 1#16 + 1#16 = s.pc + 2#16 := by bv_omega
  calc pseudoJsr c (consume 1 s)
      = jsrWith c (wordOf (s.mem.read (s.pc + 1#16 + 1#16)) (s.mem.read (s.pc + 1#16))) (consume 1 (consume 1 (consume 1 s))) :=
        rfl
    _ = execWith c (.jsr (wordOf (s.mem.read (s.pc + 2#16)) (s.mem.read (s.pc + 1#16)))) s := by
      rw [hsecond, consume_consume, consume_consume, execWith]

/-- The dispatch of R105 compares the opcode byte with the same four bytes, in the same order, as the decoder. -/
theorem nextWith_eq_pseudoStep : nextWith c s = pseudoStep c s := by
  have hdispatch : pseudoStep c s =
      if s.mem.read s.pc = 0xA9#8 then pseudoLdaImm c (consume 1 s)
      else if s.mem.read s.pc = c.opcLdaZp then pseudoLdaZp c (consume 1 s)
      else if s.mem.read s.pc = 0xB5#8 then pseudoLdaZpX c (consume 1 s)
      else if s.mem.read s.pc = c.opcJsr then pseudoJsr c (consume 1 s)
      else unknownOpcode (s.mem.read s.pc) s := rfl
  rw [hdispatch, pseudoLdaImm_eq, pseudoLdaZp_eq, pseudoLdaZpX_eq, pseudoJsr_eq, nextWith, decodeAt, decodeWith]
  split_ifs <;> rfl

end Pseudocode

/-- Settles O24: each handler's own fetches consume the bytes that the step consumes before it. -/
theorem stepRefinesPseudocode : Obligations.StepRefinesPseudocode := by
  unfold Obligations.StepRefinesPseudocode
  refine ⟨fun c s hr => ?_, fun s hr => ?_⟩
  · rw [stepWith_of_running hr, nextWith_eq_pseudoStep]
  · rw [step_of_running hr, nextWith_eq_pseudoStep]

end Sys2Proof.Machine

/-! ## The invariant (spec/10_state.md R28 to R33, R36) -/

namespace Sys2Proof.Machine

/-- Settles O30: reset clears `A` and `P`, and a fresh machine has no memory listed and no event. -/
theorem resetMeetsInvariant : Obligations.ResetMeetsInvariant where
  memory := rfl
  negative := rfl
  zero h := absurd h (by decide)
  inert f _ _ := by cases f <;> rfl
  diagnostics op h := absurd h List.not_mem_nil
  budget := by decide

/-- A step is taken with at least 1 cycle left and charges at most 6 (R31). -/
theorem neg_five_le_cyc_nextWith {s : State} (h : Running s) (c : Config) : -5 ≤ (nextWith c s).cyc := by
  have hpos : 0 < s.cyc := h
  have hcharged := (cyc_nextWith_bounds c s).1
  omega

/-- Settles O31: a load makes both flags speak of the new `A`, JSR and an unknown opcode keep `A` and `P`;
and JSR's store keeps the memory canonical. -/
theorem stepKeepsInvariant : Obligations.StepKeepsInvariant := by
  unfold Obligations.StepKeepsInvariant
  intro s t hinv h
  rw [step_eq_stepWith] at h
  obtain ⟨hr, rfl⟩ := stepWith_eq_next_iff.mp h
  have hbudget := neg_five_le_cyc_nextWith hr specConfig
  rcases nextWith_cases specConfig s with ⟨i, v, -, -, ht⟩ | ⟨target, -, ht⟩ | ⟨op, hd, ht⟩ <;> rw [ht] at hbudget ⊢
  · have heffect := loaded_effect specConfig v (Decoded.instr i).cycles s
    obtain ⟨hz, hn⟩ := heffect.flagsClear rfl
    exact
      { memory := hinv.memory
        negative := hn
        zero := fun hset => of_decide_eq_true (hz.symm.trans hset)
        inert := fun f hfz hfn => (heffect.otherFlags f hfz hfn).trans (hinv.inert f hfz hfn)
        diagnostics := hinv.diagnostics
        budget := hbudget }
  · rw [execWith_jsr] at hbudget ⊢
    exact { hinv with memory := Memory.wf_writeWord hinv.memory _ _, budget := hbudget }
  · obtain ⟨rfl, hunknown⟩ := decodeAt_specConfig_eq_unknown_iff.mp hd
    rw [unknownOpcode_eq] at hbudget ⊢
    refine { hinv with diagnostics := fun op h => ?_, budget := hbudget }
    rcases List.mem_append.mp h with hold | hnew
    · exact hinv.diagnostics op hold
    · obtain rfl : op = s.mem.read s.pc := by simpa using hnew
      exact hunknown

end Sys2Proof.Machine

/-! ## Runs of the loop (spec/40_execute_loop.md R109 to R111, spec/70_reset_and_hazards.md R181, R184) -/

namespace Sys2Proof.Machine

/-- `Execute` loads its own budget and does not feel the one before (R107). -/
@[simp] theorem execute_setCyc (c : Config) (b b' : Int) (s : State) : execute c b (s.setCyc b') = execute c b s := rfl

/-! ### Budgets passed on -/

/-- With `b'` more cycles a run goes through the same states, each with `b'` more cycles left, because no step
reads the budget; where the shorter run ends it goes on. -/
theorem execute_add {b b' : Int} (hb' : 0 ≤ b') {c : Config} {s t : State} (h : execute c b s = .next t) :
    execute c (b + b') s = execute c (t.cyc + b') t := by
  by_cases hb : 0 < b
  · rw [execute_of_pos hb] at h
    have hcharged : (nextWith c (s.setCyc b)).cyc ≤ b - 1 := (cyc_nextWith_bounds c (s.setCyc b)).2
    have hnext : nextWith c (s.setCyc (b + b')) =
        (nextWith c (s.setCyc b)).setCyc ((nextWith c (s.setCyc b)).cyc + b') := by
      rw [cyc_nextWith, decodeAt_setCyc, State.setCyc_cyc, nextWith_setCyc, nextWith_setCyc, sub_add_eq_add_sub]
      rfl
    calc execute c (b + b') s
        = execute c ((nextWith c (s.setCyc b)).cyc + b') (nextWith c (s.setCyc b)) := by
          rw [execute_of_pos (by omega), hnext, State.setCyc_cyc, execute_setCyc]
      _ = execute c (t.cyc + b') t := execute_add hb' h
  · obtain rfl : s.setCyc b = t := by simpa [execute_of_nonpos (not_lt.mp hb)] using h
    rw [State.setCyc_cyc, execute_setCyc]
termination_by b.toNat

/-- Settles O34, by `execute_add`. -/
theorem remainderCarriesOver : Obligations.RemainderCarriesOver := by
  unfold Obligations.RemainderCarriesOver
  exact fun c b b' s t hb' h => execute_add hb' h

/-- Settles O35: the one step leaves no budget, because it charges at least 1 cycle. -/
theorem budgetOneIsSingleStep : Obligations.BudgetOneIsSingleStep := by
  unfold Obligations.BudgetOneIsSingleStep
  have hone : ∀ (c : Config) (s : State), execute c 1 s = stepWith c (s.setCyc 1) := by
    intro c s
    have hr : Running (s.setCyc 1) := Int.one_pos
    have hspent : (nextWith c (s.setCyc 1)).cyc ≤ 1 - 1 := (cyc_nextWith_bounds c (s.setCyc 1)).2
    rw [execute_of_pos Int.one_pos, execute_of_nonpos hspent, stepWith_of_running hr]
    rfl
  exact ⟨hone, fun s => by rw [hone, step_eq_stepWith]⟩

/-! ### Memory of zeros -/

/-- Settles O36: each of the `k` steps is that of the unknown opcode 0x00 and costs one cycle. -/
theorem unloadedMemoryRuns : Obligations.UnloadedMemoryRuns := by
  unfold Obligations.UnloadedMemoryRuns
  intro k s hmem
  induction k generalizing s with
  | zero =>
    rw [Nat.cast_zero, execute_of_nonpos le_rfl]
    simp [State.setCyc]
  | succ k ih =>
    have hd : decodeAt specConfig (s.setCyc (k + 1 : Nat)) = .unknown 0x00#8 := by
      rw [decodeAt_setCyc, decodeAt, hmem]
      rfl
    have hnext : nextWith specConfig (s.setCyc (k + 1 : Nat)) =
        { s with pc := s.pc + 1#16, diag := s.diag ++ [Event.unsupported 0x00#8] }.setCyc k := by
      have hbudget : ((k + 1 : Nat) : Int) - 1 = k := by omega
      rw [nextWith_of_unknown hd, unknownOpcode_eq, State.setCyc_cyc, hbudget]
      rfl
    have hcounter : s.pc + 1#16 + BitVec.ofNat 16 k = s.pc + BitVec.ofNat 16 (k + 1) := by
      rw [BitVec.add_assoc, ← BitVec.ofNat_add, Nat.add_comm 1 k]
    rw [execute_of_pos (by omega), hnext, State.setCyc_cyc, execute_setCyc, ih]
    · simp [hcounter, List.replicate_succ]
    · exact hmem

/-! ### A counter in hardware -/

/-- Settles O37: a step's budgets lie between -5 and the start value, all of which the counter holds, and
its subtraction is the integer's modulo `2 ^ w`. -/
theorem hardwareBudgetCounterSuffices : Obligations.HardwareBudgetCounterSuffices := by
  unfold Obligations.HardwareBudgetCounterSuffices
  intro w s t hw hstart h
  rw [step_eq_stepWith] at h
  obtain ⟨hr, rfl⟩ := stepWith_eq_next_iff.mp h
  have hpos : 0 < s.cyc := hr
  have hbounds := cyc_nextWith_bounds specConfig s
  have hwidth : (2 : Int) ^ 3 ≤ 2 ^ (w - 1) := pow_le_pow_right₀ (by decide) (by omega)
  refine ⟨?_, by omega, ?_⟩
  · exact BitVec.toInt_ofInt_eq_self (by omega) (by omega) (by omega)
  · rw [cyc_nextWith, sub_eq_add_neg, BitVec.ofInt_add, BitVec.ofInt_neg, BitVec.ofInt_natCast, BitVec.sub_eq_add_neg]

end Sys2Proof.Machine

/-! ## The host's operations and its sessions (spec/10_state.md R36, spec/70_reset_and_hazards.md R170 to R176) -/

namespace Sys2Proof.Machine

/-! ### What a call of `Execute` keeps -/

/-- A step stores words only, which keep the canonical form. -/
theorem mem_wf_nextWith {s : State} (h : s.mem.wf = true) (c : Config) : (nextWith c s).mem.wf = true := by
  rcases nextWith_cases c s with ⟨i, v, -, -, ht⟩ | ⟨target, -, ht⟩ | ⟨op, -, ht⟩ <;> rw [ht]
  · exact h
  · rw [execWith_jsr]
    exact Memory.wf_writeWord h _ _
  · exact h

/-- The induction over a run: `Execute` returns Halted, and what holds with the budget loaded and is kept by
every running step holds of the state it returns. -/
theorem execute_induction {P : State → Prop} {c : Config} (hstep : ∀ s, Running s → P s → P (nextWith c s)) {b : Int}
    {s : State} (h : P (s.setCyc b)) : ∃ t, execute c b s = .next t ∧ ¬ Running t ∧ P t := by
  by_cases hb : 0 < b
  · have hcharged : (nextWith c (s.setCyc b)).cyc ≤ b - 1 := (cyc_nextWith_bounds c (s.setCyc b)).2
    rw [execute_of_pos hb]
    exact execute_induction hstep (hstep _ hb h)
  · exact ⟨s.setCyc b, execute_of_nonpos (not_lt.mp hb) c s, hb, h⟩
termination_by b.toNat

/-! ### What a session keeps -/

/-- What a session of the operations `ops` from `s` leaves true in `t`: Halted, a canonical memory, and,
where every budget is positive, the least budget (R31, R33, R106). -/
structure SessionKeeps (ops : List HostOp) (s t : State) : Prop where
  halted : ¬ Running t
  memory : s.mem.wf = true → t.mem.wf = true
  budget : (∀ b, .execute b ∈ ops → 0 < b) → -5 ≤ s.cyc → -5 ≤ t.cyc

theorem SessionKeeps.cons {op : HostOp} {rest : List HostOp} {s t u : State} (h : SessionKeeps [op] s t)
    (hrest : SessionKeeps rest t u) : SessionKeeps (op :: rest) s u where
  halted := hrest.halted
  memory hwf := hrest.memory (h.memory hwf)
  budget hpos hlow := by
    refine hrest.budget (fun b hb => hpos b (List.mem_cons_of_mem op hb)) (h.budget (fun b hb => hpos b ?_) hlow)
    exact List.mem_singleton.mp hb ▸ List.mem_cons_self

/-- `Execute` loads its budget over the one before, so that only its own decides how low the remainder is. -/
theorem execute_sessionKeeps (c : Config) (b : Int) (s : State) :
    ∃ t, execute c b s = .next t ∧ SessionKeeps [.execute b] s t := by
  obtain ⟨t, ht, hhalted, hwf, hlow⟩ := execute_induction (c := c) (b := b) (s := s)
    (P := fun u => (s.mem.wf = true → u.mem.wf = true) ∧ (0 < b → -5 ≤ u.cyc))
    (fun u hr ⟨hwf, _⟩ => ⟨fun h => mem_wf_nextWith (hwf h) c, fun _ => neg_five_le_cyc_nextWith hr c⟩)
    ⟨id, fun hb => le_trans (by decide) hb.le⟩
  exact ⟨t, ht, hhalted, hwf, fun hpos _ => hlow (hpos b List.mem_cons_self)⟩

/-- An operation that leaves the budget alone, and the memory canonical. -/
theorem hostAct_keeps_of_cyc_eq {c : Config} {op : HostOp} {s t : State} (h : ¬ Running s) (hact : hostAct c op s = .next t)
    (hcyc : t.cyc = s.cyc) (hwf : s.mem.wf = true → t.mem.wf = true) :
    ∃ t, hostAct c op s = .next t ∧ SessionKeeps [op] s t :=
  ⟨t, hact, by rwa [Running, hcyc], hwf, fun _ hlow => hcyc ▸ hlow⟩

/-- Every operation of a Halted host completes; only `Execute` touches the budget, and only the image load and
`Execute` write bytes (R174). -/
theorem hostAct_of_halted {s : State} (h : ¬ Running s) (c : Config) (op : HostOp) :
    ∃ t, hostAct c op s = .next t ∧ SessionKeeps [op] s t := by
  cases op with
  | memInit => exact hostAct_keeps_of_cyc_eq h (hostAct_memInit h c) rfl (fun _ => rfl)
  | loadImage image =>
    exact hostAct_keeps_of_cyc_eq h (hostAct_loadImage h c image) rfl (Memory.wf_load image)
  | execute b =>
    rw [hostAct_execute h]
    exact execute_sessionKeeps c b s
  | reset => exact hostAct_keeps_of_cyc_eq h (hostAct_reset h c) rfl id
  | presetA v => exact hostAct_keeps_of_cyc_eq h (if_neg h) rfl id
  | presetX v => exact hostAct_keeps_of_cyc_eq h (if_neg h) rfl id
  | presetY v => exact hostAct_keeps_of_cyc_eq h (if_neg h) rfl id
  | presetSP v => exact hostAct_keeps_of_cyc_eq h (if_neg h) rfl id
  | presetPC v => exact hostAct_keeps_of_cyc_eq h (if_neg h) rfl id
  | presetP v => exact hostAct_keeps_of_cyc_eq h (if_neg h) rfl id
  | inspect => exact hostAct_keeps_of_cyc_eq h (if_neg h) rfl id

theorem hostSession_of_halted {s : State} (h : ¬ Running s) (c : Config) (ops : List HostOp) :
    ∃ t, hostSession c ops s = .next t ∧ SessionKeeps ops s t := by
  induction ops generalizing s with
  | nil => exact ⟨s, rfl, h, id, fun _ => id⟩
  | cons op rest ih =>
    obtain ⟨t, ht, hkeeps⟩ := hostAct_of_halted h c op
    obtain ⟨u, hu, hrest⟩ := ih hkeeps.halted
    exact ⟨u, (hostSession_cons ht rest).trans hu, hkeeps.cons hrest⟩

/-- Settles O43: each operation leaves the core Halted for the next one. -/
theorem hostSessionsNeverStop : Obligations.HostSessionsNeverStop := by
  unfold Obligations.HostSessionsNeverStop
  intro c ops s h
  obtain ⟨t, ht, hhalted, hwf, hlow⟩ := hostSession_of_halted h c ops
  exact ⟨t, ht, hhalted, hwf, hlow⟩

/-- Settles O42: Halted, every operation completes; Running, each is refused. -/
theorem noHostMoveWhileRunning : Obligations.NoHostMoveWhileRunning := by
  unfold Obligations.NoHostMoveWhileRunning
  intro c s op
  constructor
  · rintro ⟨t, ht⟩ hr
    rw [hostAct_of_running hr] at ht
    cases ht
  · intro h
    obtain ⟨t, ht, -⟩ := hostAct_of_halted h c op
    exact ⟨t, ht⟩

/-! ### Reset and the presets -/

/-- Settles O38: the run returns Halted, so that the host may reset, and reset writes its six registers only. -/
theorem resetValues : Obligations.ResetValues := by
  unfold Obligations.ResetValues
  refine ⟨fun c b s h => ?_, fun c => ⟨rfl, rfl, rfl, rfl, rfl, rfl, Memory.read_nil, rfl, lt_irrefl 0⟩, rfl⟩
  obtain ⟨t, ht, hkeeps⟩ := hostAct_of_halted h c (.execute b)
  have hhalted := hkeeps.halted
  exact ⟨t, resetRegisters c t, ht, hostAct_reset hhalted c, rfl, rfl, rfl, rfl, rfl, rfl, rfl, rfl, rfl, hhalted⟩

/-- Settles O41: each operation writes one register, or one byte, of the state. -/
theorem hostPresets : Obligations.HostPresets := by
  unfold Obligations.HostPresets
  intro c s h
  refine ⟨fun v => ⟨_, if_neg h, rfl, rfl⟩, fun v => ⟨_, if_neg h, rfl, rfl⟩, fun v => ⟨_, if_neg h, rfl, rfl⟩,
    fun v => ⟨_, if_neg h, rfl, rfl⟩, fun v => ⟨_, if_neg h, rfl, rfl⟩, fun v => ⟨_, if_neg h, rfl, rfl⟩,
    fun a v => ⟨_, hostAct_loadImage h c _, ?_, fun addr haddr => ?_, rfl⟩, if_neg h⟩
  · exact Memory.read_write_self s.mem a v
  · exact Memory.read_write_of_ne (fun heq => haddr (List.mem_singleton.mpr heq)) s.mem v

/-! ### A placed word -/

section Placed

variable (s : State) (nbits w : Nat)

theorem running_withFetchWord : Running (s.withFetchWord nbits w) := by
  by_cases h : 0 < s.cyc <;> simp [Running, State.withFetchWord, h]

theorem mem_withFetchWord : (s.withFetchWord nbits w).mem =
    ((s.mem.write s.pc (tableByte nbits w 0)).write (s.pc + 1#16) (tableByte nbits w 1)).write (s.pc + 2#16)
      (tableByte nbits w 2) := rfl

/-- The three placed bytes are at three different addresses, so that each is read as it was placed. -/
theorem decodeAt_withFetchWord (c : Config) : decodeAt c (s.withFetchWord nbits w) =
    decodeWith c (tableByte nbits w 0) (tableByte nbits w 1) (tableByte nbits w 2) := by
  have hpc : (s.withFetchWord nbits w).pc = s.pc := rfl
  have h01 : s.pc ≠ s.pc + 1#16 := by bv_omega
  have h02 : s.pc ≠ s.pc + 2#16 := by bv_omega
  have h12 : s.pc + 1#16 ≠ s.pc + 2#16 := by bv_omega
  simp only [decodeAt, hpc, mem_withFetchWord, Memory.read_write_self, Memory.read_write_of_ne h01,
    Memory.read_write_of_ne h02, Memory.read_write_of_ne h12]

end Placed

theorem decode_of_decodeTableWord {nbits w : Nat} {i : Instr} (h : decodeTableWord nbits w = some i) :
    decode (tableByte nbits w 0) (tableByte nbits w 1) (tableByte nbits w 2) = .instr i := by
  unfold decodeTableWord at h
  split at h
  · rename_i j hd
    rw [hd, Option.some.inj h]
  · cases h

/-- Settles O44: the next step decodes the three placed bytes. -/
theorem placedWordRuns : Obligations.PlacedWordRuns := by
  unfold Obligations.PlacedWordRuns
  intro s nbits w i h
  refine ⟨?_, fun addr h0 h1 h2 => ?_, rfl⟩
  · exact step_of_instr (running_withFetchWord s nbits w)
      ((decodeAt_withFetchWord s nbits w specConfig).trans (decode_of_decodeTableWord h))
  · rw [mem_withFetchWord, Memory.read_write_of_ne h2, Memory.read_write_of_ne h1, Memory.read_write_of_ne h0]

end Sys2Proof.Machine
